-- ==== Sys2Proof/Word.lean ====
section
/-! DEFINITION. The word types of the model and the two register widths of the spec (00_scope.md R7, R10). -/

namespace Sys2Proof

/-- One byte of program text. -/
abbrev Byte := BitVec 8

/-- The value of a general register or CSR, kept in 64 bits: all CSR values are unsigned bit vectors (R10). -/
abbrev Word := BitVec 64

/-- A value of XLEN: 32 or 64 only (00_scope.md R7, decision D3). -/
inductive Xlen where
  | w32
  | w64
deriving DecidableEq, Repr, Inhabited

/-- The number of bits of a register of that width. -/
def Xlen.bits : Xlen → Nat
  | .w32 => 32
  | .w64 => 64

end Sys2Proof
end

