-- ==== Sys2Proof/Config.lean ====
section
/-! DEFINITION. What an implementation fixes: the configuration record of 00_scope.md R6, as plain data.

The functions that R8 calls `IntrLogic` are the free values of the model. They read the whole state, so they are
declared where State is known, in Sys2Proof/Machine/IntrLogic.lean, under the namespace `Sys2Proof.Config`. -/

namespace Sys2Proof

/-- The three levels that have an indirect-access window and a "top interrupt" register (00_scope.md R2). -/
inductive Level where
  | M
  | S
  | VS
deriving DecidableEq, Repr

/-- The fourteen registers that are 64 bits wide whatever XLEN is (10_state.md R27). -/
inductive Reg64 where
  | mie | mip | mideleg | mvien | mvip | sie | sip
  | hideleg | hvien | hvip | hviprio1 | hviprio2 | vsie | vsip
deriving DecidableEq, Repr

/-- The place of a 64-bit register in the list of R27. -/
def Reg64.idx : Reg64 → Fin 14
  | .mie => 0
  | .mip => 1
  | .mideleg => 2
  | .mvien => 3
  | .mvip => 4
  | .sie => 5
  | .sip => 6
  | .hideleg => 7
  | .hvien => 8
  | .hvip => 9
  | .hviprio1 => 10
  | .hviprio2 => 11
  | .vsie => 12
  | .vsip => 13

/-- The registers with a width of their own, reached through `rdW` and `wrW` (00_scope.md R8). -/
inductive RegW where
  | mtopei
  | stopei
  | vstopei
  | hvictl
deriving DecidableEq, Repr

/-- What stands for the behaviour the source sends to other chapters (00_scope.md R8, decision D7). -/
inductive IntrLogic where
  /-- The open parameter: the functions `Config.rd64` ... `Config.iregWr`, of which nothing is known. -/
  | unspecified
  /-- The spec's test fixture `PlainStorage`, with the constant write mask of each 64-bit register (R8). -/
  | plainStorage (wmask : Vector Word 14)
deriving DecidableEq, Repr, Inhabited

/-- The configuration record `Cfg` (00_scope.md R6). -/
structure Cfg where
  mxlen : Xlen
  sxlen : Xlen
  vsxlen : Xlen
  uxlen : Xlen
  vuxlen : Xlen
  hasS : Bool
  hasH : Bool
  hasImsic : Bool
  /-- The number of implemented guest external interrupts. -/
  geilen : Nat
  hasSmstateen : Bool
  hasSmcsrind : Bool
  hasSscsrind : Bool
  /-- Whether bit 58 is implemented in `hstateen0` (45_stateen_access_control.md R322). -/
  hstateen058Impl : Bool
  iselBitsM : Nat
  iselBitsS : Nat
  iselBitsVS : Nat
  iselCustomM : Bool
  iselCustomS : Bool
  iselCustomVS : Bool
  reservedSelectFaults : Bool
  intrLogic : IntrLogic
deriving DecidableEq, Repr, Inhabited

/-- The least number of bits `miselect` and `siselect` implement (10_state.md R31, R45). -/
def Cfg.iselMin (c : Cfg) : Nat := if c.hasImsic then 8 else 6

/-- The constraints that R6 and R322 put on a configuration. -/
def Cfg.wf (c : Cfg) : Bool :=
  decide (c.sxlen.bits ≤ c.mxlen.bits) && decide (c.vsxlen.bits ≤ c.sxlen.bits) &&
  (!c.hasH || c.hasS) &&
  ((c.hasImsic && c.hasH) || c.geilen == 0) &&
  (!c.hstateen058Impl || c.hasImsic) && (c.geilen == 0 || c.hstateen058Impl) &&
  decide (c.iselMin ≤ c.iselBitsM) && decide (c.iselBitsM ≤ 31) &&
  decide (c.iselMin ≤ c.iselBitsS) && decide (c.iselBitsS ≤ 31) &&
  decide (9 ≤ c.iselBitsVS) && decide (c.iselBitsVS ≤ 31)

/-- How many low bits the select register of a level implements. -/
def Cfg.iselBits (c : Cfg) : Level → Nat
  | .M => c.iselBitsM
  | .S => c.iselBitsS
  | .VS => c.iselBitsVS

/-- Whether the select register of a level holds the custom bit. -/
def Cfg.iselCustom (c : Cfg) : Level → Bool
  | .M => c.iselCustomM
  | .S => c.iselCustomS
  | .VS => c.iselCustomVS

/-- The baseline configuration `B0` of 95_test_vectors.md section 0, but for `IntrLogic`, which is left open.
DESIGN CHOICE, log 1: the configuration of the reset state. -/
def Cfg.baseline : Cfg where
  mxlen := .w64
  sxlen := .w64
  vsxlen := .w64
  uxlen := .w64
  vuxlen := .w64
  hasS := true
  hasH := true
  hasImsic := true
  geilen := 1
  hasSmstateen := true
  hasSmcsrind := false
  hasSscsrind := false
  hstateen058Impl := true
  iselBitsM := 8
  iselBitsS := 9
  iselBitsVS := 9
  iselCustomM := false
  iselCustomS := false
  iselCustomVS := false
  reservedSelectFaults := true
  intrLogic := .unspecified

end Sys2Proof
end

