-- ==== Sys2Proof/Syntax.lean ====
section
/-! DEFINITION. The six CSR access instructions (30_encoding.md R120, R121, R123). -/

namespace Sys2Proof

/-- The number of a general register, 0 to 31 (10_state.md R21). -/
abbrev Reg := Fin 32

/-- A CSR number: the 12-bit `csr` field, an unsigned number that is never extended or scaled (R121). -/
abbrev CsrNum := BitVec 12

/-- The instructions of spec/opcode_table.json, one constructor per row; operands in assembler order (R132). -/
inductive Instr where
  /-- `csrrw rd, csr, rs1` (R141) -/
  | csrrw (rd : Reg) (csr : CsrNum) (rs1 : Reg)
  /-- `csrrs rd, csr, rs1` (R142) -/
  | csrrs (rd : Reg) (csr : CsrNum) (rs1 : Reg)
  /-- `csrrc rd, csr, rs1` (R143) -/
  | csrrc (rd : Reg) (csr : CsrNum) (rs1 : Reg)
  /-- `csrrwi rd, csr, uimm` (R144) -/
  | csrrwi (rd : Reg) (csr : CsrNum) (uimm : BitVec 5)
  /-- `csrrsi rd, csr, uimm` (R145) -/
  | csrrsi (rd : Reg) (csr : CsrNum) (uimm : BitVec 5)
  /-- `csrrci rd, csr, uimm` (R146) -/
  | csrrci (rd : Reg) (csr : CsrNum) (uimm : BitVec 5)
deriving DecidableEq, Repr

/-- The destination register number of an instruction. -/
def Instr.rd : Instr → Reg
  | .csrrw rd _ _ => rd
  | .csrrs rd _ _ => rd
  | .csrrc rd _ _ => rd
  | .csrrwi rd _ _ => rd
  | .csrrsi rd _ _ => rd
  | .csrrci rd _ _ => rd

/-- The CSR number of an instruction. -/
def Instr.csr : Instr → CsrNum
  | .csrrw _ c _ => c
  | .csrrs _ c _ => c
  | .csrrc _ c _ => c
  | .csrrwi _ c _ => c
  | .csrrsi _ c _ => c
  | .csrrci _ c _ => c

end Sys2Proof
end

