-- ==== Sys2Proof/Decode.lean ====
section
/-! DEFINITION. The decoder and the encoder of the six instructions (30_encoding.md R120 to R124, R131).

Decoding looks at `opcode` and `funct3` only; any 12-bit CSR number is decoded, and what it reaches is decided by the
access check (46_access_check_algorithm.md R350). Instruction words are stored little-endian (20_memory.md R106). -/

namespace Sys2Proof

/-- Why a word is none of the six instructions (R124). -/
inductive DecodeReject where
  /-- bits 6:0 are not `1110011` -/
  | otherOpcode
  /-- `funct3 = 000`: the environment-call, breakpoint, trap-return and wait-for-interrupt instructions -/
  | funct3Zero
  /-- `funct3 = 100`: the hypervisor's virtual-machine load and store instructions -/
  | funct3Four
  /-- fewer than four bytes were given -/
  | tooFewBytes
deriving DecidableEq, Repr

/-- The major opcode SYSTEM (R120). -/
def opcodeSystem : BitVec 7 := 0b1110011#7

/-- Bits 11:7 (R121). -/
def fieldRd (w : BitVec 32) : Reg := (w.extractLsb' 7 5).toFin

/-- Bits 19:15 read as a register number (R121). -/
def fieldRs1 (w : BitVec 32) : Reg := (w.extractLsb' 15 5).toFin

/-- Bits 19:15 read as an unsigned immediate (R121). -/
def fieldUimm (w : BitVec 32) : BitVec 5 := w.extractLsb' 15 5

/-- Bits 31:20 (R121). -/
def fieldCsr (w : BitVec 32) : CsrNum := w.extractLsb' 20 12

/-- Bits 14:12 (R120). -/
def fieldFunct3 (w : BitVec 32) : BitVec 3 := w.extractLsb' 12 3

/-- The instruction a 32-bit word stands for (R123, R124). -/
def decodeWord (w : BitVec 32) : Except DecodeReject Instr :=
  if w.extractLsb' 0 7 = opcodeSystem then
    if fieldFunct3 w = 0b001#3 then .ok (.csrrw (fieldRd w) (fieldCsr w) (fieldRs1 w))
    else if fieldFunct3 w = 0b010#3 then .ok (.csrrs (fieldRd w) (fieldCsr w) (fieldRs1 w))
    else if fieldFunct3 w = 0b011#3 then .ok (.csrrc (fieldRd w) (fieldCsr w) (fieldRs1 w))
    else if fieldFunct3 w = 0b101#3 then .ok (.csrrwi (fieldRd w) (fieldCsr w) (fieldUimm w))
    else if fieldFunct3 w = 0b110#3 then .ok (.csrrsi (fieldRd w) (fieldCsr w) (fieldUimm w))
    else if fieldFunct3 w = 0b111#3 then .ok (.csrrci (fieldRd w) (fieldCsr w) (fieldUimm w))
    else if fieldFunct3 w = 0b000#3 then .error .funct3Zero
    else .error .funct3Four
  else .error .otherOpcode

/-- The word held in four bytes, the first at the lowest address holding bits 7:0 (20_memory.md R106). -/
def wordOfBytes (b0 b1 b2 b3 : Byte) : BitVec 32 :=
  (b3.setWidth 32 <<< 24) ||| (b2.setWidth 32 <<< 16) ||| (b1.setWidth 32 <<< 8) ||| b0.setWidth 32

/-- The four bytes of a word, lowest address first (20_memory.md R106). -/
def bytesOfWord (w : BitVec 32) : List Byte :=
  [w.extractLsb' 0 8, w.extractLsb' 8 8, w.extractLsb' 16 8, w.extractLsb' 24 8]

/-- The instruction at the head of a list of bytes, with the bytes after it. -/
def decode : List Byte → Except DecodeReject (Instr × List Byte)
  | b0 :: b1 :: b2 :: b3 :: rest =>
    match decodeWord (wordOfBytes b0 b1 b2 b3) with
    | .ok i => .ok (i, rest)
    | .error e => .error e
  | _ => .error .tooFewBytes

/-- A register number as the five bits of its field. -/
def regField (r : Reg) : BitVec 5 := BitVec.ofFin r

/-- The word with the given fields (R120): `(csr << 20) | (mid << 15) | (funct3 << 12) | (rd << 7) | 0x73`, as
95_test_vectors.md section 0 writes it. -/
def encodeFields (csr : CsrNum) (mid : BitVec 5) (funct3 : BitVec 3) (rd : Reg) : BitVec 32 :=
  (csr.setWidth 32 <<< 20) ||| (mid.setWidth 32 <<< 15) ||| (funct3.setWidth 32 <<< 12) |||
    ((regField rd).setWidth 32 <<< 7) ||| opcodeSystem.setWidth 32

/-- The word of an instruction (R123). -/
def encodeWord : Instr → BitVec 32
  | .csrrw rd c rs1 => encodeFields c (regField rs1) 0b001#3 rd
  | .csrrs rd c rs1 => encodeFields c (regField rs1) 0b010#3 rd
  | .csrrc rd c rs1 => encodeFields c (regField rs1) 0b011#3 rd
  | .csrrwi rd c uimm => encodeFields c uimm 0b101#3 rd
  | .csrrsi rd c uimm => encodeFields c uimm 0b110#3 rd
  | .csrrci rd c uimm => encodeFields c uimm 0b111#3 rd

/-- The bytes of an instruction as they are stored (R106, R123). -/
def encode (i : Instr) : List Byte := bytesOfWord (encodeWord i)

/-- The four stored bytes of a table row's word: bits at and above `nbits` are zero. -/
def tableBytes (nbits w : Nat) : List Byte := bytesOfWord (BitVec.ofNat 32 (w % 2 ^ nbits))

/-- The instruction the decoder reads from a word numbered as spec/opcode_table.json numbers its bits. -/
def decodeTableWord (nbits w : Nat) : Option Instr :=
  match decode (tableBytes nbits w) with
  | .ok (i, _) => some i
  | .error _ => none

end Sys2Proof
end

