-- ==== Sys2Proof/Machine/CsrTable.lean ====
section
/-! DEFINITION. The master table of the 41 CSRs (10_state.md R26) and the 15 alias CSR numbers of Smcsrind and
Sscsrind (R75 to R77). -/

namespace Sys2Proof.Machine

/-- The 41 CSRs of R26. -/
inductive Csr where
  | miselect | mireg | mie | mip | mtopei | mtopi | mideleg | mvien | mvip
  | midelegh | mieh | mvienh | mviph | miph
  | siselect | sireg | sie | sip | stopei | stopi | sieh | siph
  | hideleg | hvien | hvictl | hvip | hviprio1 | hviprio2
  | vsiselect | vsireg | vsie | vsip | vstopei | vstopi
  | hidelegh | hvienh | hviph | hviprio1h | hviprio2h | vsieh | vsiph
deriving DecidableEq, Repr

/-- The privilege codes of the source's tables (R25). -/
inductive PrivCode where
  | mrw | mro | srw | sro | hrw | hro
deriving DecidableEq, Repr

/-- The column "level" of R26. -/
inductive CsrLevel where
  | M | S | H
deriving DecidableEq, Repr

/-- The column "kind" of R26: added by the AIA, widened to 64 bits, or a high half. -/
inductive CsrKind where
  | new | widened | high
deriving DecidableEq, Repr

/-- The three state-enable bits of `mstateen0` and `hstateen0` (45_stateen_access_control.md R310, R321). -/
inductive EnBit where
  | b60 | b59 | b58
deriving DecidableEq, Repr

/-- What a CSR number names: the width column of R26 and the register behind it. -/
inductive Reach where
  /-- a select register, width XLEN -/
  | sel (l : Level)
  /-- an alias register: the window onto a level's register space, width XLEN -/
  | window (l : Level)
  /-- a 64-bit register -/
  | full (r : Reg64)
  /-- the upper 32 bits of a 64-bit register -/
  | high (r : Reg64)
  /-- a register with the width of its own level -/
  | own (r : RegW)
  /-- a "top interrupt" register -/
  | top (l : Level)
deriving DecidableEq, Repr

/-- One row of R26. `needsS`, `needsH`, `needsImsic` and `kind` together are the column "exists when". -/
structure CsrRow where
  number : CsrNum
  code : PrivCode
  level : CsrLevel
  kind : CsrKind
  needsS : Bool
  needsH : Bool
  needsImsic : Bool
  en : Option EnBit
  reach : Reach
deriving DecidableEq, Repr

/-- A machine-level row. -/
def CsrRow.machine (n : CsrNum) (code : PrivCode) (kind : CsrKind) (needsS needsImsic : Bool) (r : Reach) : CsrRow :=
  ⟨n, code, .M, kind, needsS, false, needsImsic, none, r⟩

/-- A supervisor-level row: all of them exist only with S-mode (R45 to R52). -/
def CsrRow.supervisor (n : CsrNum) (code : PrivCode) (kind : CsrKind) (needsImsic : Bool) (en : Option EnBit)
    (r : Reach) : CsrRow :=
  ⟨n, code, .S, kind, true, false, needsImsic, en, r⟩

/-- A hypervisor or VS row: all of them exist only with the hypervisor extension (R53 to R71). -/
def CsrRow.hypervisor (n : CsrNum) (code : PrivCode) (kind : CsrKind) (needsImsic : Bool) (en : Option EnBit)
    (r : Reach) : CsrRow :=
  ⟨n, code, .H, kind, false, true, needsImsic, en, r⟩

/-- The master table (R26). -/
def Csr.row : Csr → CsrRow
  | .miselect => .machine 0x350 .mrw .new false false (.sel .M)
  | .mireg => .machine 0x351 .mrw .new false false (.window .M)
  | .mie => .machine 0x304 .mrw .widened false false (.full .mie)
  | .mip => .machine 0x344 .mrw .widened false false (.full .mip)
  | .mtopei => .machine 0x35C .mrw .new false true (.own .mtopei)
  | .mtopi => .machine 0xFB0 .mro .new false false (.top .M)
  | .mideleg => .machine 0x303 .mrw .widened true false (.full .mideleg)
  | .mvien => .machine 0x308 .mrw .new true false (.full .mvien)
  | .mvip => .machine 0x309 .mrw .new true false (.full .mvip)
  | .midelegh => .machine 0x313 .mrw .high true false (.high .mideleg)
  | .mieh => .machine 0x314 .mrw .high false false (.high .mie)
  | .mvienh => .machine 0x318 .mrw .high true false (.high .mvien)
  | .mviph => .machine 0x319 .mrw .high true false (.high .mvip)
  | .miph => .machine 0x354 .mrw .high false false (.high .mip)
  | .siselect => .supervisor 0x150 .srw .new false (some .b60) (.sel .S)
  | .sireg => .supervisor 0x151 .srw .new false (some .b60) (.window .S)
  | .sie => .supervisor 0x104 .srw .widened false none (.full .sie)
  | .sip => .supervisor 0x144 .srw .widened false none (.full .sip)
  | .stopei => .supervisor 0x15C .srw .new true (some .b58) (.own .stopei)
  | .stopi => .supervisor 0xDB0 .sro .new false (some .b59) (.top .S)
  | .sieh => .supervisor 0x114 .srw .high false (some .b59) (.high .sie)
  | .siph => .supervisor 0x154 .srw .high false (some .b59) (.high .sip)
  | .hideleg => .hypervisor 0x603 .hrw .widened false none (.full .hideleg)
  | .hvien => .hypervisor 0x608 .hrw .new false (some .b59) (.full .hvien)
  | .hvictl => .hypervisor 0x609 .hrw .new false (some .b59) (.own .hvictl)
  | .hvip => .hypervisor 0x645 .hrw .widened false none (.full .hvip)
  | .hviprio1 => .hypervisor 0x646 .hrw .new false (some .b59) (.full .hviprio1)
  | .hviprio2 => .hypervisor 0x647 .hrw .new false (some .b59) (.full .hviprio2)
  | .vsiselect => .hypervisor 0x250 .hrw .new false (some .b60) (.sel .VS)
  | .vsireg => .hypervisor 0x251 .hrw .new false (some .b60) (.window .VS)
  | .vsie => .hypervisor 0x204 .hrw .widened false none (.full .vsie)
  | .vsip => .hypervisor 0x244 .hrw .widened false none (.full .vsip)
  | .vstopei => .hypervisor 0x25C .hrw .new true (some .b58) (.own .vstopei)
  | .vstopi => .hypervisor 0xEB0 .hro .new false (some .b59) (.top .VS)
  | .hidelegh => .hypervisor 0x613 .hrw .high false (some .b59) (.high .hideleg)
  | .hvienh => .hypervisor 0x618 .hrw .high false (some .b59) (.high .hvien)
  | .hviph => .hypervisor 0x655 .hrw .high false (some .b59) (.high .hvip)
  | .hviprio1h => .hypervisor 0x656 .hrw .high false (some .b59) (.high .hviprio1)
  | .hviprio2h => .hypervisor 0x657 .hrw .high false (some .b59) (.high .hviprio2)
  | .vsieh => .hypervisor 0x214 .hrw .high false (some .b59) (.high .vsie)
  | .vsiph => .hypervisor 0x254 .hrw .high false (some .b59) (.high .vsip)

/-- All 41 CSRs, in the order of R26. -/
def Csr.all : List Csr :=
  [.miselect, .mireg, .mie, .mip, .mtopei, .mtopi, .mideleg, .mvien, .mvip,
   .midelegh, .mieh, .mvienh, .mviph, .miph,
   .siselect, .sireg, .sie, .sip, .stopei, .stopi, .sieh, .siph,
   .hideleg, .hvien, .hvictl, .hvip, .hviprio1, .hviprio2,
   .vsiselect, .vsireg, .vsie, .vsip, .vstopei, .vstopi,
   .hidelegh, .hvienh, .hviph, .hviprio1h, .hviprio2h, .vsieh, .vsiph]

/-- The number of a CSR (R125). -/
def Csr.number (e : Csr) : CsrNum := e.row.number

/-- The CSR a number names, if it is one of the 41 (R125). -/
def Csr.ofNumber (n : CsrNum) : Option Csr := Csr.all.find? (fun e => e.number == n)

/-- Codes MRO, SRO, HRO (R25, 46_access_check_algorithm.md R353). -/
def PrivCode.readOnly : PrivCode → Bool
  | .mro => true
  | .sro => true
  | .hro => true
  | .mrw => false
  | .srw => false
  | .hrw => false

/-- The VS CSR that substitutes for a supervisor CSR when V = 1 (43_hypervisor_vs_csrs.md R262). -/
def Csr.twin : Csr → Option Csr
  | .siselect => some .vsiselect
  | .sireg => some .vsireg
  | .sie => some .vsie
  | .sip => some .vsip
  | .stopei => some .vstopei
  | .stopi => some .vstopi
  | .sieh => some .vsieh
  | .siph => some .vsiph
  | _ => none

/-- The window whose extra alias CSR (`mireg2`-`mireg6`, `sireg2`-`sireg6`, `vsireg2`-`vsireg6`) a number names
(R75 to R77). -/
def windowAlias (n : CsrNum) : Option Level :=
  if n ∈ [0x352#12, 0x353#12, 0x355#12, 0x356#12, 0x357#12] then some .M
  else if n ∈ [0x152#12, 0x153#12, 0x155#12, 0x156#12, 0x157#12] then some .S
  else if n ∈ [0x252#12, 0x253#12, 0x255#12, 0x256#12, 0x257#12] then some .VS
  else none

end Sys2Proof.Machine
end

