-- ==== Sys2Proof/Machine/State.lean ====
section
/-! DEFINITION. The state of one hart as plain data (10_state.md R20), its faults and refusals, and its reset value. -/

namespace Sys2Proof.Machine

/-- The privilege modes (10_state.md R24). `hs` is S-mode with V = 0, plain S-mode without the hypervisor extension. -/
inductive Mode where
  | m | hs | u | vs | vu
deriving DecidableEq, Repr, Inhabited

/-- A select register: the custom flag, seen at bit XLEN - 1, and the register number (10_state.md R29). -/
structure Isel where
  custom : Bool
  val : Nat
deriving DecidableEq, Repr, Inhabited

/-- Bits 60, 59 and 58 as stored in `mstateen0` or `hstateen0` (10_state.md R86, R87). -/
structure StateEnable where
  bit60 : Bool
  bit59 : Bool
  bit58 : Bool
deriving DecidableEq, Repr, Inhabited

/-- Sparse registers: (number, value) pairs with rising numbers; an unlisted register holds 0. -/
abbrev RegMap := List (Nat × Word)

/-- The program text as (address, byte) pairs with rising addresses; an unlisted address holds no byte
(20_memory.md R105, R106; log 9). -/
abbrev Memory := List Host.Cell

/-- The interrupt registers, the part of the state that `IntrLogic` owns (00_scope.md R8).
What `PlainStorage` stores in each; with the open parameter, what these fields mean is not known (log 2). -/
structure Intr where
  /-- the fourteen 64-bit registers, by `Reg64.idx` (R27) -/
  r64 : Vector Word 14
  mtopei : Word
  stopei : Word
  hvictl : Word
  /-- `vstopei` of each guest interrupt file, by file number (R63) -/
  vstopei : RegMap
  /-- the machine-level register space, by select value (R72) -/
  iregM : RegMap
  /-- the supervisor-level register space, by select value (R73) -/
  iregS : RegMap
  /-- the VS-level register spaces, by 256 * file + select value (R74) -/
  iregVS : RegMap
  /-- guest external interrupts pending (R88; width: log 16) -/
  hgeip : Word
  /-- guest external interrupts enabled (R88; width: log 16) -/
  hgeie : Word
deriving DecidableEq, Repr, Inhabited

/-- The state of the hart. -/
structure State where
  /-- the configuration, constant (00_scope.md R6; log 1) -/
  cfg : Cfg
  /-- the general registers (10_state.md R21) -/
  x : Vector Word 32
  /-- the program counter (R22) -/
  pc : Word
  /-- the privilege mode (R24) -/
  mode : Mode
  /-- `miselect` (R31) -/
  iselM : Isel
  /-- `siselect` (R45) -/
  iselS : Isel
  /-- `vsiselect` (R59) -/
  iselVS : Isel
  /-- the interrupt registers (R33 to R74) -/
  intr : Intr
  /-- field VGEIN of `hstatus` (R85; log 15) -/
  vgein : Nat
  /-- bits 60:58 of `mstateen0` (R86) -/
  mstateen0 : StateEnable
  /-- bits 60:58 of `hstateen0` (R87) -/
  hstateen0 : StateEnable
  /-- the program text (20_memory.md R105; log 9) -/
  mem : Memory
  /-- the model's own count of completed steps, read by the open functions of `IntrLogic` (R89; log 12) -/
  tick : Nat
deriving DecidableEq, Repr, Inhabited

/-- Why a step ends in an exception (60_exceptions.md R370, R371). The outcome is the spec's `Trap(cause)`: the
instruction has no effect and the run stops (R385). Safe: nothing is claimed of what a handler does (log 11). -/
inductive Fault where
  /-- Illegal instruction exception (R370): raised by an instruction whose access check returns it. Safe. -/
  | illegalInstruction
  /-- Virtual instruction exception (R371): raised with V = 1 by an instruction whose access check returns it. Safe. -/
  | virtualInstruction
deriving DecidableEq, Repr

/-- Why the model gives a step no meaning: the spec's own refusals (46_access_check_algorithm.md, `Refuse(reason)`).
All are safe: the model says nothing of such a step. -/
inductive Refusal where
  /-- Raised by a dispatch arm that has no meaning yet; no arm of this model answers so. Safe. -/
  | notModelled (mnemonic : String)
  /-- `Refuse(OtherCsr)` (R350, R358): the access check, for a number that is no CSR of this hardware. Safe. -/
  | otherCsr (number : CsrNum)
  /-- A custom select value (R167, R207, R253): the access check of the level's alias register. Safe. -/
  | customSelect (level : Level)
  /-- A reserved select value with `RESERVED_SELECT_FAULTS` false (R165, R206, R250): the access check. Safe. -/
  | reservedSelect (level : Level)
  /-- `Refuse(Smcsrind)` (R358): `mireg2`-`mireg6` outside the AIA's ranges. Safe. -/
  | smcsrind
  /-- `Refuse(Sscsrind)` (R358): `sireg2`-`sireg6`, `vsireg2`-`vsireg6` where the AIA does not speak. Safe. -/
  | sscsrind
  /-- The fetch, for a `pc` that is not a multiple of 4 (20_memory.md R107). Safe. -/
  | misalignedPc
  /-- The fetch, for a `pc` outside the program text (20_memory.md R105, decision D12). Safe. -/
  | pcOutsideProgram
  /-- The decoder, for a word that is none of the six instructions (30_encoding.md R124). Safe. -/
  | notAnInstruction (why : DecodeReject)
deriving DecidableEq, Repr

/-- The outcome of a step. -/
abbrev Outcome := Host.Outcome State Fault Refusal

/-- The interrupt registers after reset, all zero. DESIGN CHOICE, log 8: the spec gives no reset value (R95). Unsafe. -/
def Intr.reset : Intr where
  r64 := Vector.replicate 14 0
  mtopei := 0
  stopei := 0
  hvictl := 0
  vstopei := []
  iregM := []
  iregS := []
  iregVS := []
  hgeip := 0
  hgeie := 0

/-- The machine after reset. The spec gives no reset value at all (10_state.md R95, 70_reset_and_hazards.md R410 to
R413): the mode is R411's general knowledge (log 7) and every other value is a DESIGN CHOICE (log 1, 5, 7, 8). Unsafe. -/
def State.reset : State where
  cfg := Cfg.baseline
  x := Vector.replicate 32 0
  pc := 0
  mode := .m
  iselM := ⟨false, 0⟩
  iselS := ⟨false, 0⟩
  iselVS := ⟨false, 0⟩
  intr := Intr.reset
  vgein := 0
  mstateen0 := ⟨false, false, false⟩
  hstateen0 := ⟨false, false, false⟩
  mem := []
  tick := 0

end Sys2Proof.Machine
end

