-- ==== Sys2Proof/Machine/Ops.lean ====
section
/-! DEFINITION. The named operations over bits, program text, register maps, general registers and the program counter,
and taking an exception. -/

namespace Sys2Proof.Machine

/-! ### Widths -/

/-- The low XLEN bits of a value, zero-extended to 64 (00_scope.md R9). -/
def fit (x : Xlen) (v : Word) : Word :=
  match x with
  | .w32 => (v.setWidth 32).setWidth 64
  | .w64 => v

/-- An XLEN-bit result as a 64-bit register keeps it: sign-extended from bit 31 when XLEN is 32
(40_csr_instructions.md R150). -/
def widen (x : Xlen) (v : Word) : Word :=
  match x with
  | .w32 => (v.setWidth 32).signExtend 64
  | .w64 => v

/-- XLEN of a privilege mode (00_scope.md R7). -/
def Mode.xlen (c : Cfg) : Mode → Xlen
  | .m => c.mxlen
  | .hs => c.sxlen
  | .u => c.uxlen
  | .vs => c.vsxlen
  | .vu => c.vuxlen

/-- `V(mode) = 1`: VS-mode and VU-mode execute in a virtual machine (00_scope.md R11). -/
def Mode.virt : Mode → Bool
  | .vs => true
  | .vu => true
  | .m => false
  | .hs => false
  | .u => false

/-- The modes a hart has: HS only with S-mode, VS and VU only with the hypervisor extension (10_state.md R24). -/
def Mode.available (c : Cfg) : Mode → Bool
  | .m => true
  | .u => true
  | .hs => c.hasS
  | .vs => c.hasH
  | .vu => c.hasH

/-- `XLEN(mode)` of the current mode. -/
def State.xlen (s : State) : Xlen := s.mode.xlen s.cfg

/-! ### Program text -/

/-- The byte at an address, if there is one. -/
def Memory.read : Memory → Nat → Option Byte
  | [], _ => none
  | (a, b) :: m, at' => if a = at' then some b else Memory.read m at'

/-- The program text with one byte put at an address; addresses stay rising. -/
def Memory.write : Memory → Nat → Byte → Memory
  | [], at', v => [(at', v)]
  | (a, b) :: m, at', v =>
    if at' < a then (at', v) :: (a, b) :: m
    else if a = at' then (a, v) :: m
    else (a, b) :: Memory.write m at' v

/-- `n` bytes from an address upwards, lowest address first; none if one of them is missing. -/
def Memory.readBytes (m : Memory) (at' : Nat) : Nat → Option (List Byte)
  | 0 => some []
  | n + 1 =>
    match m.read at' with
    | none => none
    | some b =>
      match Memory.readBytes m (at' + 1) n with
      | none => none
      | some bs => some (b :: bs)

/-- The program text with bytes put at an address and upwards. -/
def Memory.writeBytes (m : Memory) (at' : Nat) : List Byte → Memory
  | [] => m
  | b :: bs => Memory.writeBytes (m.write at' b) (at' + 1) bs

/-- The canonical form: addresses strictly rise and are below 2^64. (No entry equals what an unlisted address reads as:
an unlisted address holds no byte.) -/
def Memory.wf : Memory → Bool
  | [] => true
  | [(a, _)] => decide (a < 2 ^ 64)
  | (a, _) :: (b, v) :: m => decide (a < b) && Memory.wf ((b, v) :: m)

/-! ### Sparse register maps -/

/-- The value of a register of a map. -/
def RegMap.get : RegMap → Nat → Word
  | [], _ => 0#64
  | (k, v) :: m, key => if k = key then v else RegMap.get m key

/-- The map with a register set; a zero value is not listed, and numbers stay rising. -/
def RegMap.set : RegMap → Nat → Word → RegMap
  | [], key, w => if w = 0#64 then [] else [(key, w)]
  | (k, v) :: m, key, w =>
    if key < k then (if w = 0#64 then (k, v) :: m else (key, w) :: (k, v) :: m)
    else if k = key then (if w = 0#64 then m else (k, w) :: m)
    else (k, v) :: RegMap.set m key w

/-- The canonical form of a register map: rising numbers above `lo`, no zero value. -/
def RegMap.wfFrom : RegMap → Nat → Bool
  | [], _ => true
  | (k, v) :: m, lo => decide (lo ≤ k) && v != 0#64 && RegMap.wfFrom m (k + 1)

/-- The canonical form of a register map. -/
def RegMap.wf (m : RegMap) : Bool := RegMap.wfFrom m 0

/-! ### Interrupt registers and select registers as plain storage -/

/-- The stored bits of a 64-bit register. -/
def Intr.get64 (i : Intr) (r : Reg64) : Word := i.r64[r.idx]

/-- The interrupt registers with one 64-bit register stored. -/
def Intr.set64 (i : Intr) (r : Reg64) (v : Word) : Intr := { i with r64 := i.r64.set r.idx v }

/-- The VS-level register spaces keep file and select value in one number; select values stay below 256 (R74). -/
def vsKey (file n : Nat) : Nat := 256 * file + n

/-- The select register of a level. -/
def State.isel (s : State) : Level → Isel
  | .M => s.iselM
  | .S => s.iselS
  | .VS => s.iselVS

/-- The state with the select register of a level replaced. -/
def State.withIsel (s : State) (l : Level) (v : Isel) : State :=
  match l with
  | .M => { s with iselM := v }
  | .S => { s with iselS := v }
  | .VS => { s with iselVS := v }

/-- The state with the interrupt registers replaced. -/
def State.withIntr (s : State) (i : Intr) : State := { s with intr := i }

/-- A select register as its configuration can hold it: the implemented low bits, and the custom flag only where it is
supported (10_state.md R29, R95). -/
def Isel.hold (i : Isel) (bits : Nat) (customOk : Bool) : Isel where
  custom := customOk && i.custom
  val := i.val % 2 ^ bits

/-- The state with the CSR state of another one: the select registers, the interrupt registers, VGEIN and the state-enable
bits, each as the configuration can hold it (R29, R86, R87). What a completing instruction writes besides `x[rd]` and `pc`
is "the CSR state" (00_scope.md R14), so the general registers, `pc` (R22), the mode (R24) and the parameters of the run
(R20) stay. -/
def State.withCsrStateOf (s a : State) : State :=
  { s with
    iselM := a.iselM.hold (s.cfg.iselBits .M) (s.cfg.iselCustom .M)
    iselS := a.iselS.hold (s.cfg.iselBits .S) (s.cfg.iselCustom .S)
    iselVS := a.iselVS.hold (s.cfg.iselBits .VS) (s.cfg.iselCustom .VS)
    intr := a.intr
    vgein := a.vgein
    mstateen0 := { a.mstateen0 with bit58 := a.mstateen0.bit58 && s.cfg.hasImsic }
    hstateen0 := { a.hstateen0 with bit58 := a.hstateen0.bit58 && s.cfg.hstateen058Impl } }

/-- `view(isel, X)`: a select register as seen at width X (10_state.md R29). -/
def Isel.view (i : Isel) (x : Xlen) : Word :=
  fit x (BitVec.ofNat 64 ((if i.custom then 2 ^ (x.bits - 1) else 0) + i.val))

/-- The legalised value of an X-bit write to a select register with `bits` implemented bits (10_state.md R30, D4). -/
def Isel.legalise (bits : Nat) (customOk : Bool) (x : Xlen) (w : Word) : Isel where
  custom := customOk && w.getLsbD (x.bits - 1)
  val := w.toNat % 2 ^ (x.bits - 1) % 2 ^ bits

/-! ### General registers, program counter, exceptions -/

/-- `x[r]` as an instruction of the current mode sees it: XLEN bits, and 0 for `x0` (10_state.md R21, R150). -/
def State.readReg (s : State) (r : Reg) : Word := if r = 0 then 0#64 else fit s.xlen s.x[r]

/-- `x[r] <- v`; a write to `x0` is discarded (00_scope.md R11, 10_state.md R21, R150). -/
def State.writeReg (s : State) (r : Reg) (v : Word) : State :=
  if r = 0 then s else { s with x := s.x.set r (widen s.xlen v) }

/-- `pc <- pc + 4` modulo 2^XLEN (10_state.md R22). -/
def State.advancePc (s : State) : State := { s with pc := fit s.xlen (s.pc + 4) }

/-- One more completed step: outside agents may have changed what the open functions of `IntrLogic` answer
(10_state.md R89; log 12). -/
def State.bumpTick (s : State) : State := { s with tick := s.tick + 1 }

/-- The end of a completing instruction: `x[rd] <- t`, then `pc <- pc + 4` (40_csr_instructions.md R149). -/
def State.complete (s : State) (rd : Reg) (t : Word) : State := (s.writeReg rd t).advancePc.bumpTick

/-- Taking an exception, as 60_exceptions.md R385 gives it: the step ends with the outcome `Trap(cause)`, the state is
unchanged and `pc` is still the address of the instruction, so the run stays at `s`. The spec describes no entry beyond
that (no saved pc, cause register, vector or change of mode) and no return instruction (R386); log 11. -/
def takeException (f : Fault) (_s : State) : Outcome := .fault f

/-- The exception code that labels an exception (60_exceptions.md R372). -/
def Fault.code : Fault → Nat
  | .illegalInstruction => 2
  | .virtualInstruction => 22

end Sys2Proof.Machine
end

