-- ==== Sys2Proof/Machine/Flags.lean ====
section
/-! DEFINITION. The bits the access check reads. This hardware has no status flags and no instruction computes one
(10_state.md R23); what it has in their place are the state-enable bits and the validity of `hstatus`.VGEIN. -/

namespace Sys2Proof.Machine

/-- The stored bit of a state-enable register. -/
def StateEnable.bit (e : StateEnable) : EnBit → Bool
  | .b60 => e.bit60
  | .b59 => e.bit59
  | .b58 => e.bit58

/-- What a bit of `mstateen0` reads as: bit 58 is read-only zero without an IMSIC (10_state.md R86). -/
def State.mstateen0Bit (s : State) (b : EnBit) : Bool :=
  s.mstateen0.bit b && (b != .b58 || s.cfg.hasImsic)

/-- What a bit of `hstateen0` reads as: bit 58 is read-only zero where it is not implemented (10_state.md R87). -/
def State.hstateen0Bit (s : State) (b : EnBit) : Bool :=
  s.hstateen0.bit b && (b != .b58 || s.cfg.hstateen058Impl)

/-- `ms(b)`, the effective `mstateen0` bit (45_stateen_access_control.md R312). -/
def State.ms (s : State) (b : EnBit) : Bool :=
  !s.cfg.hasSmstateen || (b == .b58 && !s.cfg.hasImsic) || s.mstateen0Bit b

/-- `hs(b)`, the effective `hstateen0` bit (45_stateen_access_control.md R312). -/
def State.hs (s : State) (b : EnBit) : Bool :=
  !s.cfg.hasSmstateen || !s.cfg.hasH || (b == .b58 && !s.cfg.hasImsic) || s.hstateen0Bit b

/-- A CSR with no state-enable bit is let through; one with a bit needs it (46_access_check_algorithm.md R354, R356). -/
def State.msOpt (s : State) : Option EnBit → Bool
  | none => true
  | some b => s.ms b

/-- As `msOpt`, for `hstateen0`. -/
def State.hsOpt (s : State) : Option EnBit → Bool
  | none => true
  | some b => s.hs b

/-- `vgein_valid(s)`: field VGEIN of `hstatus` is the number of an implemented guest external interrupt, not zero
(10_state.md R85). It does not depend on `mstateen0` (45 R316). -/
def State.vgeinValid (s : State) : Bool := decide (1 ≤ s.vgein) && decide (s.vgein ≤ s.cfg.geilen)

end Sys2Proof.Machine
end

