-- ==== Sys2Proof/Machine/IntrLogic.lean ====
section
/-! DEFINITION. The parameter `IntrLogic` (00_scope.md R8): the open functions, the fixture `PlainStorage`, and the
choice between them that the configuration makes.

The open functions are the model's free values: opaque constants of Config with no body, with the arguments and results R8
gives them, of which nothing can be proved but that equal arguments give equal answers. They read the WHOLE state, the count
of completed steps in it, so that two reads in different steps need not agree (10_state.md R89). A write answers a state, as
R8 says: of that answer the model takes ALL the CSR state it holds, select registers, VGEIN and state-enable bits included,
and nothing else, because R14 lets a step write `x[rd]`, the CSR state and `pc` only (log 3). -/

namespace Sys2Proof.Config

open Sys2Proof.Machine (State)

/-- `rd64(r, s)`. Free value, log 2. -/
opaque rd64 : Reg64 → State → Word

/-- `wr64(r, s, v)`, the state after the write. Free value, log 2 and 3. -/
opaque wr64 : Reg64 → State → Word → State

/-- `rdW(r, s)`. Free value, log 2. -/
opaque rdW : RegW → State → Word

/-- `wrW(r, s, v)`, the state after the write. Free value, log 2 and 3. -/
opaque wrW : RegW → State → Word → State

/-- `topi(level, s)`. Free value, log 2. -/
opaque topi : Level → State → Word

/-- `ireg_exists(level, file, sel, xlen)`. Free value, log 2. -/
opaque iregExists : Level → Nat → Nat → Xlen → Bool

/-- `ireg_rd(level, file, sel, xlen, s)`. Free value, log 2. -/
opaque iregRd : Level → Nat → Nat → Xlen → State → Word

/-- `ireg_wr(level, file, sel, xlen, s, v)`, the state after the write. Free value, log 2 and 3. -/
opaque iregWr : Level → Nat → Nat → Xlen → State → Word → State

end Sys2Proof.Config

namespace Sys2Proof.Machine

/-- The width W of a register that has its own (10_state.md R35, R49, R55, R63). -/
def RegW.xlen (c : Cfg) : RegW → Xlen
  | .mtopei => c.mxlen
  | .stopei => c.sxlen
  | .vstopei => c.vsxlen
  | .hvictl => c.sxlen

/-- The width of a level's "top interrupt" register (10_state.md R36, R50, R64). -/
def Level.xlen (c : Cfg) : Level → Xlen
  | .M => c.mxlen
  | .S => c.sxlen
  | .VS => c.vsxlen

/-- What `PlainStorage` stores in a register with its own width; `vstopei` is that of guest file `hstatus.VGEIN`. -/
def Intr.getW (i : Intr) (file : Nat) : RegW → Word
  | .mtopei => i.mtopei
  | .stopei => i.stopei
  | .hvictl => i.hvictl
  | .vstopei => RegMap.get i.vstopei file

/-- `PlainStorage`'s write of a register with its own width. -/
def Intr.setW (i : Intr) (file : Nat) (r : RegW) (v : Word) : Intr :=
  match r with
  | .mtopei => { i with mtopei := v }
  | .stopei => { i with stopei := v }
  | .hvictl => { i with hvictl := v }
  | .vstopei => { i with vstopei := RegMap.set i.vstopei file v }

/-- What `PlainStorage` stores in an indirectly accessed register. -/
def Intr.getIreg (i : Intr) (l : Level) (file n : Nat) : Word :=
  match l with
  | .M => RegMap.get i.iregM n
  | .S => RegMap.get i.iregS n
  | .VS => RegMap.get i.iregVS (vsKey file n)

/-- `PlainStorage`'s write of an indirectly accessed register. -/
def Intr.setIreg (i : Intr) (l : Level) (file n : Nat) (v : Word) : Intr :=
  match l with
  | .M => { i with iregM := RegMap.set i.iregM n v }
  | .S => { i with iregS := RegMap.set i.iregS n v }
  | .VS => { i with iregVS := RegMap.set i.iregVS (vsKey file n) v }

/-- `rd64(r, s)` (00_scope.md R8). -/
def rd64 (r : Reg64) (s : State) : Word :=
  match s.cfg.intrLogic with
  | .unspecified => Config.rd64 r s
  | .plainStorage _ => s.intr.get64 r

/-- `wr64(r, s, v)` (R8): `PlainStorage` stores `v AND wmask(r)`. -/
def wr64 (r : Reg64) (s : State) (v : Word) : State :=
  match s.cfg.intrLogic with
  | .unspecified => s.withCsrStateOf (Config.wr64 r s v)
  | .plainStorage wmask => s.withIntr (s.intr.set64 r (v &&& wmask[r.idx]))

/-- `rdW(r, s)` (R8), of the register's own width. -/
def rdW (r : RegW) (s : State) : Word :=
  match s.cfg.intrLogic with
  | .unspecified => fit (RegW.xlen s.cfg r) (Config.rdW r s)
  | .plainStorage _ => fit (RegW.xlen s.cfg r) (s.intr.getW s.vgein r)

/-- `wrW(r, s, v)` (R8), with `v` of the register's own width. -/
def wrW (r : RegW) (s : State) (v : Word) : State :=
  match s.cfg.intrLogic with
  | .unspecified => s.withCsrStateOf (Config.wrW r s v)
  | .plainStorage _ => s.withIntr (s.intr.setW s.vgein r v)

/-- `topi(level, s)` (R8), of the level's width; 0 under `PlainStorage`. -/
def topi (l : Level) (s : State) : Word :=
  match s.cfg.intrLogic with
  | .unspecified => fit (Level.xlen s.cfg l) (Config.topi l s)
  | .plainStorage _ => 0

/-- `ireg_exists(level, file, sel, xlen)` (R8); true everywhere under `PlainStorage`. -/
def iregExists (c : Cfg) (l : Level) (file n : Nat) (x : Xlen) : Bool :=
  match c.intrLogic with
  | .unspecified => Config.iregExists l file n x
  | .plainStorage _ => true

/-- `ireg_rd(level, file, sel, xlen, s)` (R8), an XLEN-bit value. -/
def iregRd (l : Level) (file n : Nat) (x : Xlen) (s : State) : Word :=
  match s.cfg.intrLogic with
  | .unspecified => fit x (Config.iregRd l file n x s)
  | .plainStorage _ => fit x (s.intr.getIreg l file n)

/-- `ireg_wr(level, file, sel, xlen, s, v)` (R8). -/
def iregWr (l : Level) (file n : Nat) (x : Xlen) (s : State) (v : Word) : State :=
  match s.cfg.intrLogic with
  | .unspecified => s.withCsrStateOf (Config.iregWr l file n x s v)
  | .plainStorage _ => s.withIntr (s.intr.setIreg l file n (fit x v))

end Sys2Proof.Machine
end

