-- ==== Sys2Proof/Machine/Access.lean ====
section
/-! DEFINITION. The access check as one decision procedure, and the reads and writes of what it reaches
(46_access_check_algorithm.md R350 to R358). -/

namespace Sys2Proof.Machine

/-- What an allowed access reaches (R357). -/
inductive Target where
  /-- `SelM`, `SelS`, `SelVS` -/
  | sel (l : Level)
  /-- a 64-bit register by its plain name -/
  | full (r : Reg64)
  /-- a 64-bit register by its high half -/
  | high (r : Reg64)
  /-- `mtopei`, `stopei`, `hvictl`, or `vstopei` of guest interrupt file `hstatus.VGEIN` -/
  | own (r : RegW)
  /-- `mtopi`, `stopi`, `vstopi` -/
  | top (l : Level)
  /-- the indirect register `(level, file, n)` -/
  | ireg (l : Level) (file n : Nat)
deriving DecidableEq, Repr

/-- The result of the access check. -/
inductive Access where
  | ok (t : Target)
  | trap (f : Fault)
  | refuse (r : Refusal)
deriving DecidableEq, Repr

/-- The result `IllegalInstruction`. -/
abbrev Access.illegal : Access := .trap .illegalInstruction

/-- The result `VirtualInstruction`. -/
abbrev Access.virtual : Access := .trap .virtualInstruction

/-- The classes of select values of the machine and supervisor windows (41 R162, 42 R202). -/
inductive SelClass where
  | custom | prio | eint | reserved
deriving DecidableEq, Repr

/-- `class_M` and `class_S` (41 R162, 42 R202). -/
def Isel.selClass (i : Isel) : SelClass :=
  if i.custom then .custom
  else if 0x30 ≤ i.val ∧ i.val ≤ 0x3F then .prio
  else if 0x70 ≤ i.val ∧ i.val ≤ 0xFF then .eint
  else .reserved

/-- The classes of `vsiselect` values (43 R244). -/
inductive VsClass where
  | custom | inaccessible | guestEint | reserved
deriving DecidableEq, Repr

/-- `class_VS` (43 R244). -/
def State.vsClass (s : State) : VsClass :=
  match s.iselVS.selClass with
  | .custom => .custom
  | .prio => .inaccessible
  | .eint => if s.vgeinValid then .guestEint else .inaccessible
  | .reserved => .reserved

/-- `ReservedOutcome` (42 R208). -/
def reservedOutcome (s : State) (l : Level) : Access :=
  if s.cfg.reservedSelectFaults then .illegal else .refuse (.reservedSelect l)

/-- The check of `IregAccess`: a number that holds no register raises an illegal instruction exception (41 R168). -/
def iregAccess (s : State) (l : Level) (file n : Nat) : Access :=
  if iregExists s.cfg l file n s.xlen then .ok (.ireg l file n) else .illegal

/-- `MiregAccess` (41 R168). -/
def miregAccess (s : State) : Access :=
  match s.iselM.selClass with
  | .custom => .refuse (.customSelect .M)
  | .reserved => reservedOutcome s .M
  | .eint => if !s.cfg.hasImsic then .illegal else iregAccess s .M 0 s.iselM.val
  | .prio => iregAccess s .M 0 s.iselM.val

/-- `SiregAccess` (42 R208), for M-mode and HS-mode, after the test of `ms(60)` that R354 makes. -/
def siregAccess (s : State) : Access :=
  match s.iselS.selClass with
  | .custom => .refuse (.customSelect .S)
  | .reserved => reservedOutcome s .S
  | .eint =>
    if !s.cfg.hasImsic then reservedOutcome s .S
    else if s.mode = .hs ∧ !s.ms .b58 then .illegal
    else iregAccess s .S 0 s.iselS.val
  | .prio =>
    if s.mode = .hs ∧ !s.ms .b59 then .illegal
    else iregAccess s .S 0 s.iselS.val

/-- `VsiregDirect` (43 R254), for M-mode and HS-mode, after the test of `ms(60)` that R354 makes. -/
def vsiregDirect (s : State) : Access :=
  match s.vsClass with
  | .custom => .refuse (.customSelect .VS)
  | .reserved => reservedOutcome s .VS
  | .inaccessible => .illegal
  | .guestEint =>
    if s.mode = .hs ∧ !s.ms .b58 then .illegal
    else iregAccess s .VS s.vgein s.iselVS.val

/-- `SiregVirtual` (43 R255): `sireg` by its number when V = 1. The order of the tests is the rule's. -/
def siregVirtual (s : State) : Access :=
  if !s.ms .b60 then .illegal
  else if s.mode = .vu then .virtual
  else if !s.hs .b60 then .virtual
  else
    match s.iselVS.selClass with
    | .custom => .refuse (.customSelect .VS)
    | .reserved => reservedOutcome s .VS
    | .prio => .virtual
    | .eint =>
      if s.cfg.hasImsic ∧ !s.ms .b58 then .illegal
      else if !s.cfg.hasImsic then .virtual
      else if !s.hs .b58 then .virtual
      else if !s.vgeinValid then .virtual
      else iregAccess s .VS s.vgein s.iselVS.val

/-- `TopeiVirtual` (R355): `stopei` and `vstopei` with V = 1. -/
def topeiVirtual (e : Csr) (s : State) : Access :=
  if s.cfg.hasImsic ∧ !s.ms .b58 then .illegal
  else if e = .vstopei ∨ s.mode = .vu then .virtual
  else if !s.cfg.hasImsic then .virtual
  else if !s.hs .b58 then .virtual
  else if !s.vgeinValid then .virtual
  else .ok (.own .vstopei)

/-- `Exists(e, mode)` (R352). -/
def csrExists (e : Csr) (s : State) : Bool :=
  (!e.row.needsS || s.cfg.hasS) && (!e.row.needsH || s.cfg.hasH) &&
  (!e.row.needsImsic || s.cfg.hasImsic) && (e.row.kind != .high || s.xlen == .w32)

/-- The target of a CSR that is not a window (R354, R357). The three windows have no target of their own. -/
def plainTarget (e : Csr) : Access :=
  match e.row.reach with
  | .sel l => .ok (.sel l)
  | .full r => .ok (.full r)
  | .high r => .ok (.high r)
  | .own r => .ok (.own r)
  | .top l => .ok (.top l)
  | .window _ => .illegal

/-- `CheckV0` (R354): M-mode and HS-mode. -/
def checkV0 (e : Csr) (s : State) : Access :=
  if s.mode = .hs ∧ !s.msOpt e.row.en then .illegal
  else
    match e.row.reach with
    | .window .M => miregAccess s
    | .window .S => siregAccess s
    | .window .VS => vsiregDirect s
    | .own .vstopei => if !s.vgeinValid then .illegal else .ok (.own .vstopei)
    | _ => plainTarget e

/-- `CheckV1` (R356): VS-mode and VU-mode, every CSR but `stopei` and `vstopei`. -/
def checkV1 (e : Csr) (s : State) : Access :=
  if e = .vsireg then (if s.ms .b60 then .virtual else .illegal)
  else if e = .sireg then siregVirtual s
  else if !s.msOpt e.row.en then .illegal
  else if e.row.level = .H ∨ s.mode = .vu then .virtual
  else if !s.hsOpt e.row.en then .virtual
  else
    match e.twin with
    | some t => plainTarget t
    | none => .illegal

/-- Steps 1 to 7 of `AccessCheck` for one of the 41 CSRs (R350). -/
def csrCheck (e : Csr) (wr : Bool) (s : State) : Access :=
  if e.row.level = .M ∧ s.mode ≠ .m then .illegal
  else if s.mode = .u then .illegal
  else if s.mode.virt ∧ (e = .stopei ∨ e = .vstopei) then topeiVirtual e s
  else if !csrExists e s then .illegal
  else if wr ∧ e.row.code.readOnly then .illegal
  else if !s.mode.virt then checkV0 e s
  else checkV1 e s

/-- The select value is in `0x30`-`0x3F` or `0x70`-`0xFF` and not custom (R358). -/
def Isel.aiaRange (i : Isel) : Bool := i.selClass == .prio || i.selClass == .eint

/-- `AliasCheck` (R358): the extra alias CSRs of a level's window. -/
def aliasCheck (l : Level) (c : CsrNum) (s : State) : Access :=
  match l with
  | .M =>
    if !s.cfg.hasSmcsrind then .refuse (.otherCsr c)
    else if s.mode ≠ .m then .illegal
    else if s.iselM.aiaRange then .illegal
    else .refuse .smcsrind
  | .S =>
    if !s.cfg.hasSscsrind then .refuse (.otherCsr c)
    else
      match s.mode with
      | .m => if s.iselS.aiaRange then .illegal else .refuse .sscsrind
      | .hs =>
        if !s.ms .b60 then .refuse .sscsrind
        else if s.iselS.aiaRange then .illegal
        else .refuse .sscsrind
      | .vs =>
        if !s.ms .b60 ∨ !s.hs .b60 then .refuse .sscsrind
        else if s.iselVS.aiaRange then .virtual
        else .refuse .sscsrind
      | .vu => .refuse .sscsrind
      | .u => .refuse .sscsrind
  | .VS =>
    if !(s.cfg.hasSscsrind && s.cfg.hasH) then .refuse (.otherCsr c)
    else
      match s.mode with
      | .m => if s.iselVS.aiaRange then .illegal else .refuse .sscsrind
      | .hs =>
        if !s.ms .b60 then .refuse .sscsrind
        else if s.iselVS.aiaRange then .illegal
        else .refuse .sscsrind
      | .vs => .refuse .sscsrind
      | .vu => .refuse .sscsrind
      | .u => .refuse .sscsrind

/-- `AccessCheck(c, wr, mode, s)` (R350). -/
def accessCheck (c : CsrNum) (wr : Bool) (s : State) : Access :=
  match windowAlias c with
  | some l => aliasCheck l c s
  | none =>
    match Csr.ofNumber c with
    | some e => csrCheck e wr s
    | none => .refuse (.otherCsr c)

/-- `CsrRead`: a pure function of the state (R357, 20_memory.md R108). -/
def csrRead (t : Target) (s : State) : Word :=
  match t with
  | .sel l => (s.isel l).view s.xlen
  | .full r => fit s.xlen (rd64 r s)
  | .high r => (rd64 r s).extractLsb' 32 32 |>.setWidth 64
  | .own r => fit s.xlen (rdW r s)
  | .top l => fit s.xlen (topi l s)
  | .ireg l file n => iregRd l file n s.xlen s

/-- The 64 bits written by an XLEN-bit write of `v` to a 64-bit register by its plain name: with XLEN = 32 the upper half
stays as read (10_state.md R27). -/
def mergeLow (x : Xlen) (old v : Word) : Word :=
  match x with
  | .w64 => v
  | .w32 => old.extractLsb' 32 32 ++ v.extractLsb' 0 32

/-- The 64 bits written by a write of `v` to a high half: the lower half stays as read (10_state.md R27). -/
def mergeHigh (old v : Word) : Word := v.extractLsb' 0 32 ++ old.extractLsb' 0 32

/-- `CsrWrite` of `v` (R357). A "top interrupt" register is never written (R353). -/
def csrWrite (t : Target) (s : State) (v : Word) : State :=
  match t with
  | .sel l => s.withIsel l (Isel.legalise (s.cfg.iselBits l) (s.cfg.iselCustom l) s.xlen v)
  | .full r => wr64 r s (mergeLow s.xlen (rd64 r s) v)
  | .high r => wr64 r s (mergeHigh (rd64 r s) v)
  | .own r => wrW r s (fit (RegW.xlen s.cfg r) v)
  | .top _ => s
  | .ireg l file n => iregWr l file n s.xlen s v

end Sys2Proof.Machine
end

