-- ==== Sys2Proof/Machine/Operands.lean ====
section
/-! DEFINITION. The operand forms of the six instructions (30_encoding.md R121, 40_csr_instructions.md R140, R147). -/

namespace Sys2Proof.Machine

/-- Whether an instruction reads and whether it writes the CSR (R140). -/
structure Use where
  reads : Bool
  writes : Bool
deriving DecidableEq, Repr

/-- `csrrw`, `csrrwi`: read iff `rd != 0`, always write (R140). -/
def Use.swap (rd : Reg) : Use := ⟨rd != 0, true⟩

/-- `csrrs`, `csrrc`: always read, write iff the register NUMBER `rs1` is not 0 (R140). -/
def Use.maskReg (rs1 : Reg) : Use := ⟨true, rs1 != 0⟩

/-- `csrrsi`, `csrrci`: always read, write iff `uimm != 0` (R140). -/
def Use.maskImm (uimm : BitVec 5) : Use := ⟨true, uimm != 0⟩

/-- How an instruction uses its CSR (R140). -/
def use : Instr → Use
  | .csrrw rd _ _ => Use.swap rd
  | .csrrs _ _ rs1 => Use.maskReg rs1
  | .csrrc _ _ rs1 => Use.maskReg rs1
  | .csrrwi rd _ _ => Use.swap rd
  | .csrrsi _ _ uimm => Use.maskImm uimm
  | .csrrci _ _ uimm => Use.maskImm uimm

/-- The register operand: `x[rs1]`, XLEN bits (R150). -/
def regOperand (s : State) (rs1 : Reg) : Word := s.readReg rs1

/-- The immediate operand: `zext_XLEN(uimm)` (R121). -/
def immOperand (uimm : BitVec 5) : Word := uimm.setWidth 64

/-- The new CSR value of `csrrw` and `csrrwi` (R141, R144). -/
def combineWrite (_t v : Word) : Word := v

/-- The new CSR value of `csrrs` and `csrrsi`: OR (R142, R145). -/
def combineSet (t v : Word) : Word := t ||| v

/-- The new CSR value of `csrrc` and `csrrci`: AND with complement (R143, R146). -/
def combineClear (t v : Word) : Word := t &&& ~~~v

/-- The operand of an instruction: a register or an immediate (R121). -/
def operandOf (i : Instr) (s : State) : Word :=
  match i with
  | .csrrw _ _ rs1 => regOperand s rs1
  | .csrrs _ _ rs1 => regOperand s rs1
  | .csrrc _ _ rs1 => regOperand s rs1
  | .csrrwi _ _ uimm => immOperand uimm
  | .csrrsi _ _ uimm => immOperand uimm
  | .csrrci _ _ uimm => immOperand uimm

/-- How an instruction makes the new CSR value from the old one and its operand (R141 to R147). -/
def combineOf : Instr → Word → Word → Word
  | .csrrw _ _ _ => combineWrite
  | .csrrs _ _ _ => combineSet
  | .csrrc _ _ _ => combineClear
  | .csrrwi _ _ _ => combineWrite
  | .csrrsi _ _ _ => combineSet
  | .csrrci _ _ _ => combineClear

end Sys2Proof.Machine
end

