-- ==== Sys2Proof/Machine/Zicsr.lean ====
section
/-! DEFINITION. The meanings of the six CSR access instructions (40_csr_instructions.md R141 to R146). -/

namespace Sys2Proof.Machine

/-- What the six instructions share (R149): the access check with the instruction's `wr`; if it gives an exception or a
refusal, nothing is written; else the old value is read, the new value computed from it and the operand, the CSR written,
then `x[rd]` and `pc`. A form that does not read (R140) has `rd = x0`, so no old value reaches a register. -/
def csrInstr (c : CsrNum) (rd : Reg) (u : Use) (combine : Word → Word → Word) (operand : Word) (s : State) : Outcome :=
  match accessCheck c u.writes s with
  | .trap f => takeException f s
  | .refuse r => .refused r
  | .ok t =>
    let old := if u.reads then csrRead t s else 0
    let s' := if u.writes then csrWrite t s (combine old operand) else s
    .next (s'.complete rd old)

/-- `csrrw rd, csr, rs1` (R141). -/
def execCsrrw (rd : Reg) (c : CsrNum) (rs1 : Reg) (s : State) : Outcome :=
  csrInstr c rd (Use.swap rd) combineWrite (regOperand s rs1) s

/-- `csrrs rd, csr, rs1` (R142). -/
def execCsrrs (rd : Reg) (c : CsrNum) (rs1 : Reg) (s : State) : Outcome :=
  csrInstr c rd (Use.maskReg rs1) combineSet (regOperand s rs1) s

/-- `csrrc rd, csr, rs1` (R143). -/
def execCsrrc (rd : Reg) (c : CsrNum) (rs1 : Reg) (s : State) : Outcome :=
  csrInstr c rd (Use.maskReg rs1) combineClear (regOperand s rs1) s

/-- `csrrwi rd, csr, uimm` (R144). -/
def execCsrrwi (rd : Reg) (c : CsrNum) (uimm : BitVec 5) (s : State) : Outcome :=
  csrInstr c rd (Use.swap rd) combineWrite (immOperand uimm) s

/-- `csrrsi rd, csr, uimm` (R145). -/
def execCsrrsi (rd : Reg) (c : CsrNum) (uimm : BitVec 5) (s : State) : Outcome :=
  csrInstr c rd (Use.maskImm uimm) combineSet (immOperand uimm) s

/-- `csrrci rd, csr, uimm` (R146). -/
def execCsrrci (rd : Reg) (c : CsrNum) (uimm : BitVec 5) (s : State) : Outcome :=
  csrInstr c rd (Use.maskImm uimm) combineClear (immOperand uimm) s

end Sys2Proof.Machine
end

