-- ==== Sys2Proof/Machine/Dispatch.lean ====
section
/-! DEFINITION. The meaning of every instruction, one arm per constructor of Instr. -/

namespace Sys2Proof.Machine

def exec (i : Instr) (s : State) : Host.Outcome State Fault Refusal :=
  match i with
  | .csrrw rd c rs1 => Sys2Proof.Machine.execCsrrw rd c rs1 s
  | .csrrs rd c rs1 => Sys2Proof.Machine.execCsrrs rd c rs1 s
  | .csrrc rd c rs1 => Sys2Proof.Machine.execCsrrc rd c rs1 s
  | .csrrwi rd c uimm => Sys2Proof.Machine.execCsrrwi rd c uimm s
  | .csrrsi rd c uimm => Sys2Proof.Machine.execCsrrsi rd c uimm s
  | .csrrci rd c uimm => Sys2Proof.Machine.execCsrrci rd c uimm s

end Sys2Proof.Machine
end

