-- ==== Sys2Proof/Machine/Fetch.lean ====
section
/-! DEFINITION. Fetching the bytes of the next instruction from the program text (20_memory.md R105 to R107). -/

namespace Sys2Proof.Machine

/-- The address `pc` holds: XLEN bits (10_state.md R22). -/
def State.fetchAddr (s : State) : Nat := (fit s.xlen s.pc).toNat

/-- The four bytes at `pc`. A misaligned `pc` is refused (R107), and so is a `pc` outside the program (R105, D12). -/
def fetch (s : State) : Except Refusal (List Byte) :=
  if s.fetchAddr % 4 ≠ 0 then .error .misalignedPc
  else
    match s.mem.readBytes s.fetchAddr 4 with
    | none => .error .pcOutsideProgram
    | some bs => .ok bs

/-- The state with the bytes of one instruction stored where the next fetch reads. -/
def State.storeAtPc (s : State) (bs : List Byte) : State := { s with mem := s.mem.writeBytes s.fetchAddr bs }

end Sys2Proof.Machine
end

