-- ==== Sys2Proof/Machine/Step.lean ====
section
/-! DEFINITION. One step: fetch, decode, execute (00_scope.md R14). -/

namespace Sys2Proof.Machine

/-- One step of the hart. A word that is none of the six instructions is refused, not faulted (30_encoding.md R124). -/
def step (s : State) : Host.Outcome State Fault Refusal :=
  match fetch s with
  | .error r => .refused r
  | .ok bs =>
    match decode bs with
    | .error why => .refused (.notAnInstruction why)
    | .ok (i, _) => exec i s

/-- `s` with a table row's word stored where the next step fetches (log 9: a program is loaded from outside). -/
def State.withFetchWord (s : State) (nbits w : Nat) : State := s.storeAtPc (tableBytes nbits w)

end Sys2Proof.Machine
end

