-- ==== Sys2Proof/Safety.lean ====
section
/-! DEFINITION. What a legal state is: the invariants of 10_state.md R95 and 70_reset_and_hazards.md R410, and the shape
of the host shell. A run is safe while its states are legal. -/

namespace Sys2Proof.Machine

/-- A select register holds a value its configuration implements (10_state.md R29, R95). -/
def Isel.legal (i : Isel) (bits : Nat) (customOk : Bool) : Bool := decide (i.val < 2 ^ bits) && (!i.custom || customOk)

/-- The select register of a level is legal. -/
def State.iselLegal (s : State) (l : Level) : Bool := (s.isel l).legal (s.cfg.iselBits l) (s.cfg.iselCustom l)

/-- `pc` is 4-byte aligned and has XLEN bits (10_state.md R22). -/
def State.pcLegal (s : State) : Bool := decide (s.pc.toNat % 4 = 0) && fit s.xlen s.pc == s.pc

/-- Under `PlainStorage` the sparse register maps are in their canonical form; what the open functions keep in them is
not the model's to say. -/
def State.intrLegal (s : State) : Bool :=
  match s.cfg.intrLogic with
  | .unspecified => true
  | .plainStorage _ =>
    RegMap.wf s.intr.vstopei && RegMap.wf s.intr.iregM && RegMap.wf s.intr.iregS && RegMap.wf s.intr.iregVS

/-- The read-only-zero bits of the state-enable registers are stored as zero (10_state.md R86, R87; 70 R410). -/
def State.enableLegal (s : State) : Bool :=
  (!s.mstateen0.bit58 || s.cfg.hasImsic) && (!s.hstateen0.bit58 || s.cfg.hstateen058Impl)

/-- A legal state: a legal configuration, a mode the hart has (R24), `x0` stored as 0, a legal `pc`, legal select
registers, read-only-zero bits zero, and program text and register maps in canonical form. -/
def State.wf (s : State) : Bool :=
  s.cfg.wf && s.mode.available s.cfg && s.x[(0 : Reg)] == 0 && s.pcLegal &&
  s.iselLegal .M && s.iselLegal .S && s.iselLegal .VS && s.enableLegal && s.mem.wf && s.intrLegal

/-- A select value without the custom bit lies in a range, both ends included (00_scope.md R10). -/
abbrev Isel.within (i : Isel) (lo hi : Nat) : Prop := i.custom = false ∧ lo ≤ i.val ∧ i.val ≤ hi

/-- The select values the AIA allocates: `0x30`-`0x3F` and `0x70`-`0xFF` (41 R162, 42 R202, 43 R244). -/
abbrev Isel.inAiaRange (i : Isel) : Prop := i.within 0x30 0x3F ∨ i.within 0x70 0xFF

/-- The accesses to a select register that the spec allows: the number `c` reaches the select register of level `l`
(41 R163, 42 R203, 43 R245, R264). -/
def selectAllowed (s : State) (c : CsrNum) (l : Level) : Prop :=
  (s.mode = .m ∧ c = 0x350#12 ∧ l = .M) ∨
  (s.cfg.hasS = true ∧ (s.mode = .m ∨ (s.mode = .hs ∧ s.ms .b60 = true)) ∧ c = 0x150#12 ∧ l = .S) ∨
  (s.cfg.hasH = true ∧ (s.mode = .m ∨ (s.mode = .hs ∧ s.ms .b60 = true)) ∧ c = 0x250#12 ∧ l = .VS) ∨
  (s.cfg.hasS = true ∧ s.mode = .vs ∧ s.ms .b60 = true ∧ s.hs .b60 = true ∧ c = 0x150#12 ∧ l = .VS)

/-- The conditions under which M-mode or HS-mode reaches a CSR by its own number, its read-only rule apart: it exists and
its privilege level and state-enable bit allow it (46_access_check_algorithm.md R351, R352, R354). -/
def reachableV0 (e : Csr) (s : State) : Prop :=
  csrExists e s = true ∧
  (s.mode = .m ∨ (s.mode = .hs ∧ e.row.level ≠ .M ∧ s.msOpt e.row.en = true))

/-- A step of a run is safe when it leaves a legal state or stops. -/
def safeStep (s : State) : Prop := ∀ t, step s = .next t → t.wf = true

end Sys2Proof.Machine
end

