-- ==== Sys2Proof/WellFormed.lean ====
section
/-! DEFINITION. Which instructions are well formed.

The types of the operands already bound the register numbers, the immediate and the CSR number (30_encoding.md R120).
What is left to check is the `csr` field: R127's "well-formed CSR instruction" names one of the 41 CSRs of R125 or one of
the 15 alias CSRs of 10_state.md R75 to R77. Every other number belongs to other specifications (20_memory.md R101). -/

namespace Sys2Proof

/-- The number is one of the 56 this spec gives a meaning to (20_memory.md R101). -/
def CsrNum.known (n : CsrNum) : Bool :=
  (Machine.Csr.ofNumber n).isSome || (Machine.windowAlias n).isSome

/-- An instruction is well formed when its `csr` field names a CSR of this spec. -/
def Instr.wellFormed (i : Instr) : Bool := CsrNum.known i.csr

end Sys2Proof
end

