-- ==== Sys2Proof/Certificates/Slice0/Obligations.lean ====
section
/-! DEFINITION. The statements for the provers: what the decoder, the six instructions, the access check and the step do.

A statement that begins `∀ (i : Instr)` and fixes only `i.csr` is about all six instructions, read and write forms alike
(40_csr_instructions.md R151). Every statement is for every configuration, since the configuration is part of the state
(log 1), and for every behaviour of the interrupt registers, whose functions are opaque (log 2), unless it names
`PlainStorage` (00_scope.md R8). -/

open Sys2Proof Sys2Proof.Machine

/-! ### Encoding -/

/-- Decoding the stored bytes of any instruction gives it back, and leaves the bytes after it. -/
def Obligations.DecodeOfEncode : Prop :=
  ∀ (i : Instr) (rest : List Byte), (encode i).length = 4 ∧ decode (encode i ++ rest) = .ok (i, rest)

/-- Each word has one meaning: a word that decodes to an instruction is that instruction's word. -/
def Obligations.EncodeOfDecode : Prop :=
  ∀ (w : BitVec 32) (i : Instr), decodeWord w = .ok i → encodeWord i = w

/-- R123 (general knowledge K1 of the spec, decision D1): a word is the instruction of a row exactly when `w AND mask =
match`; its operands are bits 11:7, 31:20 and 19:15 (R121), here written with division by powers of two. -/
def Obligations.DecodeFollowsTheTable : Prop :=
  ∀ w : BitVec 32,
    let rd : Reg := Fin.ofNat 32 (w.toNat / 2 ^ 7)
    let rs1 : Reg := Fin.ofNat 32 (w.toNat / 2 ^ 15)
    let uimm := BitVec.ofNat 5 (w.toNat / 2 ^ 15)
    let csr := BitVec.ofNat 12 (w.toNat / 2 ^ 20)
    let m := w &&& 0x0000707F#32
    (m = 0x00001073#32 ↔ decodeWord w = .ok (.csrrw rd csr rs1)) ∧
    (m = 0x00002073#32 ↔ decodeWord w = .ok (.csrrs rd csr rs1)) ∧
    (m = 0x00003073#32 ↔ decodeWord w = .ok (.csrrc rd csr rs1)) ∧
    (m = 0x00005073#32 ↔ decodeWord w = .ok (.csrrwi rd csr uimm)) ∧
    (m = 0x00006073#32 ↔ decodeWord w = .ok (.csrrsi rd csr uimm)) ∧
    (m = 0x00007073#32 ↔ decodeWord w = .ok (.csrrci rd csr uimm))

/-- R124 (decision D1): every word that is none of the six is rejected by name. -/
def Obligations.DecodeRefusesOtherWords : Prop :=
  ∀ w : BitVec 32,
    (w &&& 0x7F#32 ≠ 0x73#32 → decodeWord w = .error .otherOpcode) ∧
    (w &&& 0x707F#32 = 0x0073#32 → decodeWord w = .error .funct3Zero) ∧
    (w &&& 0x707F#32 = 0x4073#32 → decodeWord w = .error .funct3Four)

/-- Words of 95_test_vectors.md section 2 decode to the instructions printed beside them. -/
def Obligations.SpecWordsDecode : Prop :=
  decodeWord 0x35029073#32 = .ok (.csrrw 0 0x350#12 5) ∧
  decodeWord 0x35102373#32 = .ok (.csrrs 6 0x351#12 0) ∧
  decodeWord 0x3042B5F3#32 = .ok (.csrrc 11 0x304#12 5) ∧
  decodeWord 0x35085073#32 = .ok (.csrrwi 0 0x350#12 16#5) ∧
  decodeWord 0x3041E4F3#32 = .ok (.csrrsi 9 0x304#12 3#5) ∧
  decodeWord 0x609FF073#32 = .ok (.csrrci 0 0x609#12 31#5)

/-! ### The step -/

/-- A step at an aligned `pc` whose four bytes decode to an instruction is that instruction's meaning, and nothing else
happens around it. Log 9: the program text is kept as bytes. -/
def Obligations.StepRunsDecodedInstruction : Prop :=
  ∀ (s : State) (bs rest : List Byte) (i : Instr),
    s.fetchAddr % 4 = 0 → s.mem.readBytes s.fetchAddr 4 = some bs → decode bs = .ok (i, rest) → step s = exec i s

/-- A misaligned `pc` (R107), a `pc` outside the program (R105, decision D12) and a word that is no instruction (R124,
decision D1) are refused. The program text is the model's list of bytes (DESIGN CHOICE, log 9), and that a text which ends
within the four bytes counts as a `pc` outside the program is the model's deduction (DEDUCED, log 10). -/
def Obligations.StepRefusesWithoutInstruction : Prop :=
  ∀ s : State,
    (s.fetchAddr % 4 ≠ 0 → step s = .refused .misalignedPc) ∧
    (s.fetchAddr % 4 = 0 →
      (s.mem.readBytes s.fetchAddr 4 = none → step s = .refused .pcOutsideProgram) ∧
      (∀ bs why, s.mem.readBytes s.fetchAddr 4 = some bs → decode bs = .error why →
        step s = .refused (.notAnInstruction why)))

/-- The reset state is a legal state. The values are the model's choice (log 1, 5, 7, 8); that they lie in the legal
ranges is what 10_state.md R95 asks. -/
def Obligations.ResetIsLegal : Prop := State.reset.wf = true

/-- Every step from a legal state that answers a next state leaves a legal state: a legal configuration and mode, `x0`
stored as zero, `pc` aligned and of XLEN bits, each select register within its implemented range, read-only-zero bits
zero, program text (and, under `PlainStorage`, register maps) in canonical form. The model's choices in it: that a write
of the open interrupt logic leaves `pc`, the general registers, the mode and the parameters of the run alone, and gives
the CSR state values the configuration can hold (DEDUCED, log 3); the canonical program text (DESIGN CHOICE, log 9); `pc`
stored zero-extended (DEDUCED, log 17). -/
def Obligations.EveryStepKeepsLegalStates : Prop :=
  ∀ s t : State, s.wf = true → step s = .next t → t.wf = true

/-! ### Registers and frames -/

/-- R11, R21, R150 (the spec's general knowledge K2, K25): `x0` reads 0 and a write to it changes nothing; any other
register reads back the XLEN bits written, and in a 32-bit mode its stored upper half repeats bit 31. -/
def Obligations.RegisterWriteThenRead : Prop :=
  ∀ (s : State) (v : Word),
    s.readReg 0 = 0 ∧ s.writeReg 0 v = s ∧
    ∀ r : Reg, r ≠ 0 →
      ((s.writeReg r v).readReg r).toNat = v.toNat % 2 ^ s.xlen.bits ∧
      (s.xlen = .w32 → ∀ k, 32 ≤ k → k < 64 → (s.writeReg r v).x[r].getLsbD k = v.getLsbD 31) ∧
      ∀ q : Reg, q ≠ r → (s.writeReg r v).readReg q = s.readReg q

/-- What no completing CSR instruction changes: the configuration, the mode, every byte of memory, every register but
`x[rd]`, `x0` in any case; `pc` moves on by 4 modulo 2^XLEN. A form that does not write its CSR (R140) changes no CSR state
at all, and a write of a select register changes no other. The model's choices in it: that an open write of the interrupt
logic stays within the CSR state, so leaves these alone, is read from R14 (DEDUCED, log 3); that a read changes nothing is
decision D21 (UNVERIFIED, log 18). What an open write does to the CSR state is not said (R8). -/
def Obligations.FrameOfEveryInstruction : Prop :=
  ∀ (i : Instr) (s t : State), exec i s = .next t →
    t.cfg = s.cfg ∧ t.mode = s.mode ∧
    (∀ a, t.mem.read a = s.mem.read a) ∧
    (∀ r : Reg, r ≠ i.rd → t.x[r] = s.x[r]) ∧ t.x[(0 : Reg)] = s.x[(0 : Reg)] ∧
    t.pc.toNat = (s.pc.toNat + 4) % 2 ^ s.xlen.bits ∧
    ((use i).writes = false →
      t.intr = s.intr ∧ t.vgein = s.vgein ∧ t.mstateen0 = s.mstateen0 ∧ t.hstateen0 = s.hstateen0 ∧
      ∀ l, t.isel l = s.isel l) ∧
    (∀ l, accessCheck i.csr (use i).writes s = .ok (.sel l) →
      t.intr = s.intr ∧ t.vgein = s.vgein ∧ t.mstateen0 = s.mstateen0 ∧ t.hstateen0 = s.hstateen0 ∧
      ∀ l', l' ≠ l → t.isel l' = s.isel l')

/-- Which CSR state a completing instruction may change, under `PlainStorage`: only what its target names. R8 says of the
fixture only how the 64-bit and the indirect registers are stored; that `mtopei`, `stopei` and `hvictl` are one stored word
each and `vstopei` one word per guest interrupt file is the model's choice (DESIGN CHOICE, log 4), and so are the clauses on
`hgeip` and `hgeie` (DESIGN CHOICE, log 16). -/
def Obligations.PlainStorageFrame : Prop :=
  ∀ (i : Instr) (s t : State) (tgt : Target) (wmask : Vector Word 14),
    s.cfg.intrLogic = .plainStorage wmask → accessCheck i.csr (use i).writes s = .ok tgt → exec i s = .next t →
    t.vgein = s.vgein ∧ t.mstateen0 = s.mstateen0 ∧ t.hstateen0 = s.hstateen0 ∧
    t.intr.hgeip = s.intr.hgeip ∧ t.intr.hgeie = s.intr.hgeie ∧
    (∀ l, tgt ≠ .sel l → t.isel l = s.isel l) ∧
    (∀ r, tgt ≠ .full r → tgt ≠ .high r → t.intr.get64 r = s.intr.get64 r) ∧
    (∀ r, tgt ≠ .own r → ∀ file, t.intr.getW file r = s.intr.getW file r) ∧
    (∀ file, file ≠ s.vgein → t.intr.getW file .vstopei = s.intr.getW file .vstopei) ∧
    (∀ n, tgt ≠ .ireg .M 0 n → t.intr.getIreg .M 0 n = s.intr.getIreg .M 0 n) ∧
    (∀ n, tgt ≠ .ireg .S 0 n → t.intr.getIreg .S 0 n = s.intr.getIreg .S 0 n) ∧
    (∀ file n, n < 256 → tgt ≠ .ireg .VS file n → t.intr.getIreg .VS file n = s.intr.getIreg .VS file n)

/-! ### The six instructions, where the access check lets them through -/

/-- R141 (K1, D1): `csrrw` writes `x[rs1]`, read before `x[rd]` is written, and puts the old value into `x[rd]`. -/
def Obligations.CsrrwCompletes : Prop :=
  ∀ (rd rs1 : Reg) (c : CsrNum) (s : State) (t : Target), accessCheck c true s = .ok t →
    exec (.csrrw rd c rs1) s = .next ((csrWrite t s (s.readReg rs1)).complete rd (csrRead t s))

/-- R142 (K1, D1): `csrrs` reads, and if `rs1` is not `x0` writes the OR. -/
def Obligations.CsrrsCompletes : Prop :=
  ∀ (rd rs1 : Reg) (c : CsrNum) (s : State) (t : Target),
    (accessCheck c false s = .ok t → exec (.csrrs rd c 0) s = .next (s.complete rd (csrRead t s))) ∧
    (rs1 ≠ 0 → accessCheck c true s = .ok t →
      exec (.csrrs rd c rs1) s =
        .next ((csrWrite t s (csrRead t s ||| s.readReg rs1)).complete rd (csrRead t s)))

/-- R143 (K1, D1): `csrrc` reads, and if `rs1` is not `x0` writes the AND with the complement. -/
def Obligations.CsrrcCompletes : Prop :=
  ∀ (rd rs1 : Reg) (c : CsrNum) (s : State) (t : Target),
    (accessCheck c false s = .ok t → exec (.csrrc rd c 0) s = .next (s.complete rd (csrRead t s))) ∧
    (rs1 ≠ 0 → accessCheck c true s = .ok t →
      exec (.csrrc rd c rs1) s =
        .next ((csrWrite t s (csrRead t s &&& ~~~ s.readReg rs1)).complete rd (csrRead t s)))

/-- R144 (K1, D1): `csrrwi` writes the zero-extended immediate. -/
def Obligations.CsrrwiCompletes : Prop :=
  ∀ (rd : Reg) (uimm : BitVec 5) (c : CsrNum) (s : State) (t : Target), accessCheck c true s = .ok t →
    exec (.csrrwi rd c uimm) s =
      .next ((csrWrite t s (BitVec.ofNat 64 uimm.toNat)).complete rd (csrRead t s))

/-- R145 (K1, D1): `csrrsi` reads, and if `uimm` is not 0 writes the OR with it. -/
def Obligations.CsrrsiCompletes : Prop :=
  ∀ (rd : Reg) (uimm : BitVec 5) (c : CsrNum) (s : State) (t : Target),
    (accessCheck c false s = .ok t → exec (.csrrsi rd c 0#5) s = .next (s.complete rd (csrRead t s))) ∧
    (uimm ≠ 0#5 → accessCheck c true s = .ok t →
      exec (.csrrsi rd c uimm) s =
        .next ((csrWrite t s (csrRead t s ||| BitVec.ofNat 64 uimm.toNat)).complete rd (csrRead t s)))

/-- R146 (K1, D1): `csrrci` reads, and if `uimm` is not 0 clears its bits. -/
def Obligations.CsrrciCompletes : Prop :=
  ∀ (rd : Reg) (uimm : BitVec 5) (c : CsrNum) (s : State) (t : Target),
    (accessCheck c false s = .ok t → exec (.csrrci rd c 0#5) s = .next (s.complete rd (csrRead t s))) ∧
    (uimm ≠ 0#5 → accessCheck c true s = .ok t →
      exec (.csrrci rd c uimm) s =
        .next ((csrWrite t s (csrRead t s &&& ~~~ BitVec.ofNat 64 uimm.toNat)).complete rd (csrRead t s)))

/-- Every form of all six completes from M-mode, and from HS-mode with the CSR's level and state-enable bit allowing it, on
every CSR that exists, is no alias register, is not read-only when written, and, for `vstopei`, has a valid VGEIN (R163,
R170 to R172, R203, R210, R211, R213, R242, R245, R258). -/
def Obligations.ExistingCsrAccessCompletes : Prop :=
  ∀ (i : Instr) (s : State) (e : Csr), i.csr = e.number → reachableV0 e s →
    (∀ l, e.row.reach ≠ .window l) → ((use i).writes = true → e.row.code.readOnly = false) →
    (e = .vstopei → 1 ≤ s.vgein ∧ s.vgein ≤ s.cfg.geilen) →
    ∃ t, exec i s = .next t ∧ t.pc.toNat = (s.pc.toNat + 4) % 2 ^ s.xlen.bits

/-- R264, R265: every form of all six completes from VS-mode on `siselect`, `sie`, `sip`, `sieh`, `siph` and, when it does
not write, `stopi`, and reaches the VS twin; `sieh` and `siph` exist with VSXLEN = 32, and bits 60 and 59 of both
state-enable registers let `siselect` and the last three through. -/
def Obligations.GuestCsrAccessCompletes : Prop :=
  ∀ (i : Instr) (s : State) (tgt : Target), s.cfg.hasS = true → s.mode = .vs →
    (i.csr, tgt) ∈ [(0x150#12, Target.sel .VS), (0x104#12, .full .vsie), (0x144#12, .full .vsip),
      (0x114#12, .high .vsie), (0x154#12, .high .vsip), (0xDB0#12, .top .VS)] →
    (i.csr = 0x150#12 → s.ms .b60 = true ∧ s.hs .b60 = true) →
    (i.csr ∈ [0x114#12, 0x154#12] → s.cfg.vsxlen = .w32) →
    (i.csr ∈ [0x114#12, 0x154#12, 0xDB0#12] → s.ms .b59 = true ∧ s.hs .b59 = true) →
    (i.csr = 0xDB0#12 → (use i).writes = false) →
    accessCheck i.csr (use i).writes s = .ok tgt ∧
    ∃ t, exec i s = .next t ∧ t.pc.toNat = (s.pc.toNat + 4) % 2 ^ s.xlen.bits

/-! ### Select registers -/

/-- R29, R30, R163, R203, R245, R264 with the masking of decision D4: a write of any value completes; it changes that one
select register; and reading it back gives the low implemented bits, with bit XLEN-1 if the custom bit is supported. -/
def Obligations.SelectWriteThenRead : Prop :=
  ∀ (s : State) (c : CsrNum) (l : Level) (rs1 rd : Reg), s.cfg.wf = true → selectAllowed s c l → rd ≠ 0 →
    ∃ s1 s2, exec (.csrrw 0 c rs1) s = .next s1 ∧ exec (.csrrs rd c 0) s1 = .next s2 ∧
      s1.intr = s.intr ∧ (∀ l', l' ≠ l → s1.isel l' = s.isel l') ∧
      (s2.readReg rd).toNat =
        (if s.cfg.iselCustom l = true ∧ (s.readReg rs1).getLsbD (s.xlen.bits - 1) = true
          then 2 ^ (s.xlen.bits - 1) else 0) + (s.readReg rs1).toNat % 2 ^ s.cfg.iselBits l

/-- R31, R45, R59: the ranges the select registers must be able to hold: any 6-bit value without an IMSIC and any 8-bit
value with one (`miselect`, `siselect`), any 9-bit value (`vsiselect`). Such a value is stored as written. -/
def Obligations.SelectHoldsRequiredRange : Prop :=
  ∀ (s : State) (c : CsrNum) (l : Level) (rs1 : Reg), s.cfg.wf = true → selectAllowed s c l →
    (s.readReg rs1).toNat < (if l = .VS then 0x200 else if s.cfg.hasImsic then 0x100 else 0x40) →
    ∃ t, exec (.csrrw 0 c rs1) s = .next t ∧ t.isel l = ⟨false, (s.readReg rs1).toNat⟩

/-- R29 (representation: decision D4): the top bit of a select register is seen at bit 31 with XLEN = 32 and at bit 63 with
XLEN = 64, and the register number below it is the same at both widths. -/
def Obligations.CustomBitMovesWithXlen : Prop :=
  ∀ i : Isel, i.val < 2 ^ 31 →
    (i.view .w32).getLsbD 31 = i.custom ∧ (i.view .w64).getLsbD 63 = i.custom ∧
    (i.view .w32).toNat % 2 ^ 31 = i.val ∧ (i.view .w64).toNat % 2 ^ 63 = i.val ∧ (i.view .w32).toNat < 2 ^ 32

/-! ### 64-bit registers, halves, own widths, top interrupts -/

/-- R27 (decision D14 for the other half): the plain name of a 64-bit register, from M-mode and HS-mode. With XLEN = 64 the
whole register, with XLEN = 32 its lower half, the upper staying as read. -/
def Obligations.FullNameAccess : Prop :=
  ∀ (s : State) (e : Csr) (r : Reg64) (rd rs1 : Reg), e.row.reach = .full r → reachableV0 e s →
    exec (.csrrw rd e.number rs1) s =
      .next ((wr64 r s
        (if s.xlen = .w64 then s.readReg rs1
         else BitVec.ofNat 64 ((rd64 r s).toNat / 2 ^ 32 * 2 ^ 32 + (s.readReg rs1).toNat))).complete rd
        (BitVec.ofNat 64 ((rd64 r s).toNat % 2 ^ s.xlen.bits)))

/-- R27, R28 (decision D14 for the other half): the high-half name, from M-mode and HS-mode with XLEN = 32: it reads bits
63:32 and writes them, the lower half staying as read. -/
def Obligations.HighHalfAccess : Prop :=
  ∀ (s : State) (e : Csr) (r : Reg64) (rd rs1 : Reg), e.row.reach = .high r → reachableV0 e s →
    s.xlen = .w32 ∧
    exec (.csrrw rd e.number rs1) s =
      .next ((wr64 r s
        (BitVec.ofNat 64 ((s.readReg rs1).toNat * 2 ^ 32 + (rd64 r s).toNat % 2 ^ 32))).complete rd
        (BitVec.ofNat 64 ((rd64 r s).toNat / 2 ^ 32)))

/-- R262, R265, R27 (decision D14 for the other half): the guest's `sie` and `sip` are `vsie` and `vsip`, whole with
VSXLEN = 64 and by halves with VSXLEN = 32, the halves `sieh` and `siph` under bit 59 of both state-enable registers. -/
def Obligations.GuestInterruptRegisterAccess : Prop :=
  ∀ (s : State) (rd rs1 : Reg), s.cfg.hasS = true → s.mode = .vs →
    (∀ c r, (c, r) ∈ [(0x104#12, Reg64.vsie), (0x144#12, Reg64.vsip)] →
      exec (.csrrw rd c rs1) s =
        .next ((wr64 r s
          (if s.cfg.vsxlen = .w64 then s.readReg rs1
           else BitVec.ofNat 64 ((rd64 r s).toNat / 2 ^ 32 * 2 ^ 32 + (s.readReg rs1).toNat))).complete rd
          (BitVec.ofNat 64 ((rd64 r s).toNat % 2 ^ s.cfg.vsxlen.bits)))) ∧
    (s.cfg.vsxlen = .w32 → s.ms .b59 = true → s.hs .b59 = true →
      ∀ c r, (c, r) ∈ [(0x114#12, Reg64.vsie), (0x154#12, Reg64.vsip)] →
        exec (.csrrw rd c rs1) s =
          .next ((wr64 r s
            (BitVec.ofNat 64 ((s.readReg rs1).toNat * 2 ^ 32 + (rd64 r s).toNat % 2 ^ 32))).complete rd
            (BitVec.ofNat 64 ((rd64 r s).toNat / 2 ^ 32))))

/-- R8's `PlainStorage` with R27: a 64-bit register written by its plain name reads back, in the next instruction, the
bits its write mask keeps; with XLEN = 32 the upper half keeps, under the mask, what it held, which is decision D14
(UNVERIFIED, log 18). -/
def Obligations.PlainStorageRegisterReadsBack : Prop :=
  ∀ (s : State) (e : Csr) (r : Reg64) (rd rs1 : Reg) (wmask : Vector Word 14),
    s.cfg.intrLogic = .plainStorage wmask → e.row.reach = .full r → reachableV0 e s → rd ≠ 0 →
    ∃ s1 s2, exec (.csrrw 0 e.number rs1) s = .next s1 ∧ exec (.csrrs rd e.number 0) s1 = .next s2 ∧
      (s2.readReg rd).toNat = ((s.readReg rs1).toNat &&& wmask[r.idx].toNat) % 2 ^ s.xlen.bits ∧
      (∀ k, s.xlen.bits ≤ k → (s1.intr.get64 r).getLsbD k = ((s.intr.get64 r).getLsbD k && wmask[r.idx].getLsbD k))

/-- R28, R352 (decisions D6 and D26; R171, R200, R210, R240): an access to a CSR that does not exist is an illegal
instruction exception in every mode, `stopei` and `vstopei` with V = 1 apart (R292). Absent are: without S-mode the
supervisor-level CSRs and `mideleg`, `mvien`, `mvip` with their halves; without the hypervisor extension the hypervisor and
VS CSRs; without an IMSIC `mtopei`, `stopei` and `vstopei`; with XLEN(mode) = 64 every high half; and no others. -/
def Obligations.AbsentCsrIsIllegal : Prop :=
  ∀ s : State,
    (∀ (i : Instr) (e : Csr), i.csr = e.number → csrExists e s = false →
      ¬ (s.mode.virt = true ∧ (e = .stopei ∨ e = .vstopei)) → exec i s = .fault .illegalInstruction) ∧
    (∀ e : Csr, csrExists e s = false ↔
      ((s.cfg.hasS = false ∧ e.number ∈ [0x150#12, 0x151#12, 0x104#12, 0x144#12, 0x15C#12, 0xDB0#12, 0x114#12, 0x154#12,
          0x303#12, 0x308#12, 0x309#12, 0x313#12, 0x318#12, 0x319#12]) ∨
       (s.cfg.hasH = false ∧ e.number ∈ [0x603#12, 0x608#12, 0x609#12, 0x645#12, 0x646#12, 0x647#12, 0x250#12, 0x251#12,
          0x204#12, 0x244#12, 0x25C#12, 0xEB0#12, 0x613#12, 0x618#12, 0x655#12, 0x656#12, 0x657#12, 0x214#12, 0x254#12]) ∨
       (s.cfg.hasImsic = false ∧ e.number ∈ [0x35C#12, 0x15C#12, 0x25C#12]) ∨
       (s.xlen = .w64 ∧ e.number ∈ [0x313#12, 0x314#12, 0x318#12, 0x319#12, 0x354#12, 0x114#12, 0x154#12, 0x613#12,
          0x618#12, 0x655#12, 0x656#12, 0x657#12, 0x214#12, 0x254#12])))

/-- R353 (decision D16): any form that writes `mtopi`, `stopi` or `vstopi` is an illegal instruction exception, in every
mode and whatever the value written. -/
def Obligations.WriteToReadOnlyIsIllegal : Prop :=
  ∀ (i : Instr) (s : State), (i.csr = 0xFB0#12 ∨ i.csr = 0xDB0#12 ∨ i.csr = 0xEB0#12) → (use i).writes = true →
    exec i s = .fault .illegalInstruction

/-- R172, R211, R242, R265: reads of the "top interrupt" registers, and `stopi` from VS-mode reading `vstopi`. -/
def Obligations.TopInterruptReads : Prop :=
  ∀ (s : State) (rd : Reg),
    (s.mode = .m → exec (.csrrs rd 0xFB0#12 0) s = .next (s.complete rd (fit s.xlen (topi .M s)))) ∧
    (reachableV0 .stopi s → exec (.csrrs rd 0xDB0#12 0) s = .next (s.complete rd (fit s.xlen (topi .S s)))) ∧
    (reachableV0 .vstopi s → exec (.csrrs rd 0xEB0#12 0) s = .next (s.complete rd (fit s.xlen (topi .VS s)))) ∧
    (s.mode = .vs → s.cfg.hasS = true → s.ms .b59 = true → s.hs .b59 = true →
      exec (.csrrs rd 0xDB0#12 0) s = .next (s.complete rd (fit s.xlen (topi .VS s))))

/-- R9 (decision D14), R63, R171, R210, R242, R258: `mtopei`, `stopei`, `hvictl` and, with a valid VGEIN, `vstopei` from
M-mode and HS-mode, and `stopei` from VS-mode, which is `vstopei`. The read value is of the register's own width, so
zero-extended; the write takes that many low bits of `x[rs1]`. -/
def Obligations.OwnWidthAccess : Prop :=
  ∀ (s : State) (rd rs1 : Reg), s.cfg.wf = true →
    (∀ (e : Csr) (r : RegW), e.row.reach = .own r → reachableV0 e s →
      (r = .vstopei → 1 ≤ s.vgein ∧ s.vgein ≤ s.cfg.geilen) →
      (rdW r s).toNat < 2 ^ (RegW.xlen s.cfg r).bits ∧
      exec (.csrrw rd e.number rs1) s =
        .next ((wrW r s (BitVec.ofNat 64 ((s.readReg rs1).toNat % 2 ^ (RegW.xlen s.cfg r).bits))).complete rd
          (rdW r s))) ∧
    (s.mode = .vs → s.cfg.hasImsic = true → s.ms .b58 = true → s.hs .b58 = true →
      1 ≤ s.vgein → s.vgein ≤ s.cfg.geilen →
      (rdW .vstopei s).toNat < 2 ^ s.cfg.vsxlen.bits ∧
      exec (.csrrw rd 0x15C#12 rs1) s =
        .next ((wrW .vstopei s (BitVec.ofNat 64 ((s.readReg rs1).toNat % 2 ^ s.cfg.vsxlen.bits))).complete rd
          (rdW .vstopei s)))

/-! ### Privilege -/

/-- R161, R351 (decision D15): a machine-level CSR below M-mode is an illegal instruction exception, never virtual. -/
def Obligations.MachineCsrsOnlyInMMode : Prop :=
  ∀ (i : Instr) (s : State) (e : Csr), i.csr = e.number → e.row.level = .M → s.mode ≠ .m →
    exec i s = .fault .illegalInstruction

/-- R351 (decision D15): from U-mode every one of the 41 CSRs is an illegal instruction exception. -/
def Obligations.UModeAccessIsIllegal : Prop :=
  ∀ (i : Instr) (s : State) (e : Csr), i.csr = e.number → s.mode = .u → exec i s = .fault .illegalInstruction

/-- R359 (2), R371: with V = 0 no instruction, on any CSR number, raises a virtual instruction exception. -/
def Obligations.NoVirtualInstructionWhenV0 : Prop :=
  ∀ (i : Instr) (s : State), s.mode.virt = false → exec i s ≠ .fault .virtualInstruction

/-- R311, R359 (3): "the state-enable CSRs do not affect the accessibility of any state when in M-mode". -/
def Obligations.MModeIgnoresStateEnables : Prop :=
  ∀ (c : CsrNum) (wr : Bool) (s : State) (a b : StateEnable), s.mode = .m →
    accessCheck c wr { s with mstateen0 := a, hstateen0 := b } = accessCheck c wr s

/-- R241, R359 (4): with V = 0 `hstateen0` has no effect on any access. -/
def Obligations.V0IgnoresHstateen0 : Prop :=
  ∀ (c : CsrNum) (wr : Bool) (s : State) (b : StateEnable), s.mode.virt = false →
    accessCheck c wr { s with hstateen0 := b } = accessCheck c wr s

/-- R262, R359 (6) and (8): with V = 1 an access is let through only from VS-mode, only by the eight supervisor numbers,
and it reaches the VS twin; a guest interrupt file only when VGEIN is valid. -/
def Obligations.GuestReachesOnlyTwins : Prop :=
  ∀ (c : CsrNum) (wr : Bool) (s : State) (t : Target), s.mode.virt = true → accessCheck c wr s = .ok t →
    s.mode = .vs ∧
    ((c = 0x150#12 ∧ t = .sel .VS) ∨
     (c = 0x151#12 ∧ t = .ireg .VS s.vgein s.iselVS.val ∧ s.iselVS.within 0x70 0xFF ∧
       1 ≤ s.vgein ∧ s.vgein ≤ s.cfg.geilen) ∨
     (c = 0x104#12 ∧ t = .full .vsie) ∨ (c = 0x144#12 ∧ t = .full .vsip) ∨
     (c = 0x114#12 ∧ t = .high .vsie) ∨ (c = 0x154#12 ∧ t = .high .vsip) ∨
     (c = 0xDB0#12 ∧ t = .top .VS ∧ wr = false) ∨
     (c = 0x15C#12 ∧ t = .own .vstopei ∧ 1 ≤ s.vgein ∧ s.vgein ≤ s.cfg.geilen))

/-- What a guest cannot change: by `siselect`, and by any form that does not write, no CSR state but `vsiselect`; under
`PlainStorage`, whatever instruction it completes, `miselect`, `siselect`, VGEIN, both state-enable registers, every
64-bit register but `vsie` and `vsip`, `mtopei`, `stopei`, `hvictl`, the machine-level and supervisor-level register
spaces, and the guest interrupt files other than its own (R262, R390, R395). How `PlainStorage` keeps `mtopei`, `stopei`,
`hvictl` and one `vstopei` per file is the model's choice (DESIGN CHOICE, log 4). Of a write of an interrupt register under
the open interrupt logic nothing is said (R8; log 3). -/
def Obligations.GuestIsolation : Prop :=
  ∀ (i : Instr) (s t : State), s.mode.virt = true → exec i s = .next t →
    ((i.csr = 0x150#12 ∨ (use i).writes = false) →
      t.iselM = s.iselM ∧ t.iselS = s.iselS ∧ t.vgein = s.vgein ∧ t.mstateen0 = s.mstateen0 ∧
      t.hstateen0 = s.hstateen0 ∧ t.intr = s.intr) ∧
    ∀ wmask, s.cfg.intrLogic = .plainStorage wmask →
      t.iselM = s.iselM ∧ t.iselS = s.iselS ∧ t.vgein = s.vgein ∧ t.mstateen0 = s.mstateen0 ∧
      t.hstateen0 = s.hstateen0 ∧
      (∀ r, r ≠ .vsie → r ≠ .vsip → t.intr.get64 r = s.intr.get64 r) ∧
      t.intr.mtopei = s.intr.mtopei ∧ t.intr.stopei = s.intr.stopei ∧ t.intr.hvictl = s.intr.hvictl ∧
      t.intr.iregM = s.intr.iregM ∧ t.intr.iregS = s.intr.iregS ∧
      (∀ file, file ≠ s.vgein → t.intr.getW file .vstopei = s.intr.getW file .vstopei) ∧
      (∀ file n, file ≠ s.vgein → n < 256 → t.intr.getIreg .VS file n = s.intr.getIreg .VS file n)

/-- R266, R290, R291 (decision D17): the default rule. From VS-mode a hypervisor or VS CSR other than `vsireg` and
`vstopei` by its own number, and from VU-mode any supervisor-level, hypervisor or VS CSR other than `sireg`, `vsireg`,
`stopei` and `vstopei`, is a virtual instruction exception exactly when the CSR exists at the mode's XLEN, is not a
read-only CSR being written, and its `mstateen0` bit lets it through; else an illegal instruction exception. -/
def Obligations.DefaultVirtualInstructionRule : Prop :=
  ∀ (i : Instr) (s : State) (e : Csr), i.csr = e.number → e ∉ [Csr.sireg, .vsireg, .stopei, .vstopei] →
    ((s.mode = .vs ∧ e.row.level = .H) ∨ (s.mode = .vu ∧ e.row.level ≠ .M)) →
    exec i s =
      .fault (if csrExists e s = true ∧ ¬ ((use i).writes = true ∧ e.row.code.readOnly = true) ∧
          s.msOpt e.row.en = true then .virtualInstruction else .illegalInstruction)

/-! ### State-enable bits -/

/-- R313: with Smstateen and `mstateen0[60] = 0`, an access below M-mode to `siselect`, `sireg`, `vsiselect` or `vsireg` is
an illegal instruction exception, whatever select value is in force. -/
def Obligations.Mstateen60ZeroIsIllegal : Prop :=
  ∀ (i : Instr) (s : State), s.cfg.hasSmstateen = true → s.mstateen0Bit .b60 = false → s.mode ≠ .m →
    (i.csr = 0x150#12 ∨ i.csr = 0x151#12 ∨ i.csr = 0x250#12 ∨ i.csr = 0x251#12) →
    exec i s = .fault .illegalInstruction

/-- R314: bit 59. With Smstateen and `mstateen0[59] = 0`, an access below M-mode to any of the fifteen listed CSRs is an
illegal instruction exception, and so is `sireg` from HS-mode with `siselect` in `0x30`-`0x3F`; the six CSRs not in the
list and every machine-level CSR are under none of the three bits, of `mstateen0` or of `hstateen0`. -/
def Obligations.Bit59ControlsItsList : Prop :=
  (∀ (i : Instr) (s : State), s.cfg.hasSmstateen = true → s.mstateen0Bit .b59 = false → s.mode ≠ .m →
    (i.csr ∈ [0x154#12, 0x114#12, 0xDB0#12, 0x613#12, 0x608#12, 0x618#12, 0x655#12, 0x609#12, 0x646#12, 0x656#12,
        0x647#12, 0x657#12, 0x254#12, 0x214#12, 0xEB0#12] ∨
      (i.csr = 0x151#12 ∧ s.mode = .hs ∧ s.iselS.within 0x30 0x3F)) →
    exec i s = .fault .illegalInstruction) ∧
  (∀ (c : CsrNum) (wr : Bool) (s : State) (a b : StateEnable),
    (c ∈ [0x104#12, 0x144#12, 0x603#12, 0x645#12, 0x204#12, 0x244#12] ∨
      ∃ e : Csr, e.number = c ∧ e.row.level = .M) →
    accessCheck c wr { s with mstateen0 := a, hstateen0 := b } = accessCheck c wr s)

/-- R318 (decision D8 for VS-mode): bit 58. With Smstateen, an IMSIC and `mstateen0[58] = 0`, an access below M-mode to
`stopei` or `vstopei`, or to a select value `0x70`-`0xFF` of the supervisor-level or VS-level space (for VS-mode, once bit
60 of `hstateen0` lets it through), is an illegal instruction exception, whether VGEIN is valid or not. -/
def Obligations.Mstateen58ZeroIsIllegal : Prop :=
  ∀ (i : Instr) (s : State), s.cfg.hasSmstateen = true → s.cfg.hasImsic = true → s.mstateen0Bit .b58 = false →
    s.mode ≠ .m →
    (i.csr = 0x15C#12 ∨ i.csr = 0x25C#12 ∨
      (s.mode = .hs ∧ i.csr = 0x151#12 ∧ s.iselS.within 0x70 0xFF) ∨
      (s.mode = .hs ∧ i.csr = 0x251#12 ∧ s.iselVS.within 0x70 0xFF) ∨
      (s.mode = .vs ∧ i.csr = 0x151#12 ∧ s.iselVS.within 0x70 0xFF ∧ s.hs .b60 = true)) →
    exec i s = .fault .illegalInstruction

/-- R247, R317: `vsireg` by its own number from VS-mode or VU-mode, and `sireg` from VU-mode, are virtual instruction
exceptions, whatever the select value, `hstateen0` and the other bits hold; illegal instruction exceptions exactly when
Smstateen is implemented and `mstateen0[60]` is zero. -/
def Obligations.VsiregAndSiregForGuests : Prop :=
  ∀ (i : Instr) (s : State), s.cfg.wf = true → s.cfg.hasH = true →
    ((s.mode.virt = true ∧ i.csr = 0x251#12) ∨ (s.mode = .vu ∧ i.csr = 0x151#12)) →
    exec i s =
      .fault (if s.cfg.hasSmstateen = true ∧ s.mstateen0Bit .b60 = false then .illegalInstruction
        else .virtualInstruction)

/-- R324: bit 60 one in `mstateen0` and zero in `hstateen0`: every access to `siselect` or `sireg` from VS-mode or VU-mode is
a virtual instruction exception, regardless of `vsiselect` and of the other bits. -/
def Obligations.Hstateen60ZeroIsVirtual : Prop :=
  ∀ (i : Instr) (s : State), s.cfg.wf = true → s.cfg.hasH = true → s.cfg.hasSmstateen = true →
    s.mstateen0Bit .b60 = true → s.hstateen0Bit .b60 = false → s.mode.virt = true →
    (i.csr = 0x150#12 ∨ i.csr = 0x151#12) → exec i s = .fault .virtualInstruction

/-- R323, R265: bit 59 one in `mstateen0` and zero in `hstateen0`: reads of `stopi`, and with XLEN = 32 every access to
`sieh` or `siph`, from VS-mode are virtual instruction exceptions, and from VU-mode whatever `hstateen0` holds; with
XLEN = 64 `sieh` and `siph` are illegal instruction exceptions as usual. (A write of `stopi` is decision D16's.) -/
def Obligations.Hstateen59ZeroIsVirtual : Prop :=
  ∀ (i : Instr) (s : State), s.cfg.wf = true → s.cfg.hasH = true → s.cfg.hasSmstateen = true →
    s.mstateen0Bit .b59 = true → s.mode.virt = true → (s.hstateen0Bit .b59 = false ∨ s.mode = .vu) →
    ((i.csr = 0xDB0#12 ∧ (use i).writes = false) ∨ (s.xlen = .w32 ∧ (i.csr = 0x114#12 ∨ i.csr = 0x154#12)) →
      exec i s = .fault .virtualInstruction) ∧
    (s.xlen = .w64 → (i.csr = 0x114#12 ∨ i.csr = 0x154#12) → exec i s = .fault .illegalInstruction)

/-- R320: without an IMSIC bit 58 of `mstateen0` reads zero, yet has no effect: from VS-mode `sireg` with `vsiselect` in
`0x70`-`0xFF` (bit 60 letting it through) and `stopei` are virtual, not illegal, instruction exceptions; and no access from
any mode depends on what is stored in bit 58. -/
def Obligations.NoImsicGivesVirtual : Prop :=
  ∀ s : State, s.cfg.wf = true → s.cfg.hasImsic = false →
    s.mstateen0Bit .b58 = false ∧ s.ms .b58 = true ∧
    (∀ i : Instr, s.cfg.hasH = true → s.mode = .vs →
      ((i.csr = 0x151#12 ∧ s.iselVS.within 0x70 0xFF ∧ s.ms .b60 = true ∧ s.hs .b60 = true) ∨ i.csr = 0x15C#12) →
      exec i s = .fault .virtualInstruction) ∧
    (∀ (c : CsrNum) (wr b : Bool),
      accessCheck c wr { s with mstateen0 := { s.mstateen0 with bit58 := b } } = accessCheck c wr s)

/-- R325: bit 58 of `hstateen0` zero is the same for a virtual machine as `hstatus.VGEIN = 0`, and changes nothing that
M-mode or HS-mode can reach. -/
def Obligations.Hstateen58ZeroIsLikeVgeinZero : Prop :=
  ∀ (c : CsrNum) (wr : Bool) (s : State), s.cfg.hasSmstateen = true → s.cfg.hasH = true →
    s.hstateen0Bit .b58 = false →
    (s.mode.virt = true →
      accessCheck c wr s = accessCheck c wr { s with vgein := 0 } ∧
      accessCheck c wr s =
        accessCheck c wr { s with vgein := 0, hstateen0 := { s.hstateen0 with bit58 := true } }) ∧
    (s.mode.virt = false →
      accessCheck c wr { s with hstateen0 := { s.hstateen0 with bit58 := true } } = accessCheck c wr s) ∧
    (∀ i : Instr, s.mode = .vs → s.cfg.hasS = true → s.ms .b58 = true →
      ((i.csr = 0x151#12 ∧ s.ms .b60 = true ∧ s.hs .b60 = true ∧ s.iselVS.within 0x70 0xFF) ∨ i.csr = 0x15C#12) →
      exec i s = .fault .virtualInstruction)

/-! ### Windows, by select value -/

/-- R164 to R168: `mireg` from M-mode, by the value of `miselect`. The outcome of a reserved value follows
`RESERVED_SELECT_FAULTS`, which is decision D5, and an illegal instruction exception for a number that holds no register is
D19 (UNVERIFIED, log 18); the stop on a custom value is D18 (DEDUCED, log 20). -/
def Obligations.MiregByMiselect : Prop :=
  ∀ (i : Instr) (s : State), i.csr = 0x351#12 → s.mode = .m →
    (s.iselM.custom = true → exec i s = .refused (.customSelect .M)) ∧
    (s.iselM.custom = false → ¬ s.iselM.inAiaRange →
      exec i s = if s.cfg.reservedSelectFaults then .fault .illegalInstruction else .refused (.reservedSelect .M)) ∧
    (s.iselM.within 0x70 0xFF → s.cfg.hasImsic = false → exec i s = .fault .illegalInstruction) ∧
    ((s.iselM.within 0x30 0x3F ∨ (s.iselM.within 0x70 0xFF ∧ s.cfg.hasImsic = true)) →
      (iregExists s.cfg .M 0 s.iselM.val s.xlen = false → exec i s = .fault .illegalInstruction) ∧
      (iregExists s.cfg .M 0 s.iselM.val s.xlen = true →
        accessCheck i.csr (use i).writes s = .ok (.ireg .M 0 s.iselM.val) ∧ ∃ t, exec i s = .next t))

/-- R204 to R208: `sireg` with V = 0, by the value of `siselect`, with the state-enable bits 60, 59 and 58 that HS-mode
needs. The outcome of a reserved value is decision D5 and an illegal instruction exception for a number that holds no
register D19 (UNVERIFIED, log 18); the stop on a custom value is D18 (DEDUCED, log 20). -/
def Obligations.SiregBySiselect : Prop :=
  ∀ (i : Instr) (s : State), i.csr = 0x151#12 → s.cfg.hasS = true → (s.mode = .m ∨ s.mode = .hs) →
    (s.mode = .hs → s.ms .b60 = false → exec i s = .fault .illegalInstruction) ∧
    ((s.mode = .hs → s.ms .b60 = true) →
      (s.iselS.custom = true → exec i s = .refused (.customSelect .S)) ∧
      ((s.iselS.custom = false ∧ ¬ s.iselS.inAiaRange) ∨ (s.iselS.within 0x70 0xFF ∧ s.cfg.hasImsic = false) →
        exec i s = if s.cfg.reservedSelectFaults then .fault .illegalInstruction else .refused (.reservedSelect .S)) ∧
      (s.mode = .hs → s.iselS.within 0x30 0x3F → s.ms .b59 = false → exec i s = .fault .illegalInstruction) ∧
      (s.mode = .hs → s.iselS.within 0x70 0xFF → s.cfg.hasImsic = true → s.ms .b58 = false →
        exec i s = .fault .illegalInstruction) ∧
      ((s.iselS.within 0x30 0x3F ∧ (s.mode = .hs → s.ms .b59 = true)) ∨
        (s.iselS.within 0x70 0xFF ∧ s.cfg.hasImsic = true ∧ (s.mode = .hs → s.ms .b58 = true)) →
        (iregExists s.cfg .S 0 s.iselS.val s.xlen = false → exec i s = .fault .illegalInstruction) ∧
        (iregExists s.cfg .S 0 s.iselS.val s.xlen = true →
          accessCheck i.csr (use i).writes s = .ok (.ireg .S 0 s.iselS.val) ∧ ∃ t, exec i s = .next t)))

/-- R254: `vsireg` from M-mode and HS-mode, by the value of `vsiselect` and the validity of VGEIN. The outcome of a reserved
value is decision D5 and an illegal instruction exception for a number that holds no register D19 (UNVERIFIED, log 18); the
stop on a custom value is D22 (DEDUCED, log 20). -/
def Obligations.VsiregByVsiselect : Prop :=
  ∀ (i : Instr) (s : State), i.csr = 0x251#12 → s.cfg.hasH = true → (s.mode = .m ∨ s.mode = .hs) →
    (s.mode = .hs → s.ms .b60 = false → exec i s = .fault .illegalInstruction) ∧
    ((s.mode = .hs → s.ms .b60 = true) →
      (s.iselVS.custom = true → exec i s = .refused (.customSelect .VS)) ∧
      (s.iselVS.custom = false → ¬ s.iselVS.inAiaRange →
        exec i s = if s.cfg.reservedSelectFaults then .fault .illegalInstruction else .refused (.reservedSelect .VS)) ∧
      (s.iselVS.within 0x30 0x3F → exec i s = .fault .illegalInstruction) ∧
      (s.iselVS.within 0x70 0xFF → ¬ (1 ≤ s.vgein ∧ s.vgein ≤ s.cfg.geilen) → exec i s = .fault .illegalInstruction) ∧
      (s.mode = .hs → s.iselVS.within 0x70 0xFF → s.ms .b58 = false → exec i s = .fault .illegalInstruction) ∧
      (s.iselVS.within 0x70 0xFF → 1 ≤ s.vgein → s.vgein ≤ s.cfg.geilen → (s.mode = .hs → s.ms .b58 = true) →
        (iregExists s.cfg .VS s.vgein s.iselVS.val s.xlen = false → exec i s = .fault .illegalInstruction) ∧
        (iregExists s.cfg .VS s.vgein s.iselVS.val s.xlen = true →
          accessCheck i.csr (use i).writes s = .ok (.ireg .VS s.vgein s.iselVS.val) ∧ ∃ t, exec i s = .next t)))

/-- R255: `sireg` from VS-mode once bit 60 of both state-enable registers lets it through, by the value of `vsiselect`, with
the order of decision D8 (a zero `mstateen0[58]` first) and decision D9 (bit 59 not consulted). The outcome of a reserved
value is decision D5, an illegal instruction exception for a number that holds no register D19 (all UNVERIFIED, log 18),
and the stop on a custom value D22 (DEDUCED, log 20). -/
def Obligations.SiregFromVsMode : Prop :=
  ∀ (i : Instr) (s : State), i.csr = 0x151#12 → s.cfg.hasS = true → s.mode = .vs → s.ms .b60 = true → s.hs .b60 = true →
    (s.iselVS.custom = true → exec i s = .refused (.customSelect .VS)) ∧
    (s.iselVS.custom = false → ¬ s.iselVS.inAiaRange →
      exec i s = if s.cfg.reservedSelectFaults then .fault .illegalInstruction else .refused (.reservedSelect .VS)) ∧
    (s.iselVS.within 0x30 0x3F → exec i s = .fault .virtualInstruction) ∧
    (s.iselVS.within 0x70 0xFF →
      (s.ms .b58 = false → exec i s = .fault .illegalInstruction) ∧
      (s.ms .b58 = true →
        (s.cfg.hasImsic = false ∨ s.hs .b58 = false ∨ ¬ (1 ≤ s.vgein ∧ s.vgein ≤ s.cfg.geilen) →
          exec i s = .fault .virtualInstruction) ∧
        (s.cfg.hasImsic = true → s.hs .b58 = true → 1 ≤ s.vgein → s.vgein ≤ s.cfg.geilen →
          (iregExists s.cfg .VS s.vgein s.iselVS.val s.xlen = false → exec i s = .fault .illegalInstruction) ∧
          (iregExists s.cfg .VS s.vgein s.iselVS.val s.xlen = true →
            accessCheck i.csr (use i).writes s = .ok (.ireg .VS s.vgein s.iselVS.val) ∧ ∃ t, exec i s = .next t))))

/-- R252: an inaccessible `vsiselect` value (`0x30`-`0x3F` always; `0x70`-`0xFF` with an invalid VGEIN, and from VS-mode also
with bit 58 of `hstateen0` zero): illegal instruction from M-mode or HS-mode through `vsireg`, virtual instruction from
VS-mode through `sireg`, once the state-enable bits that take precedence let the access through. That `mstateen0[59]` is not
consulted for `0x30`-`0x3F` from VS-mode is decision D9 (UNVERIFIED, log 18). -/
def Obligations.InaccessibleSelectValues : Prop :=
  ∀ (i : Instr) (s : State), s.cfg.wf = true → s.cfg.hasH = true →
    ((s.mode = .m ∨ s.mode = .hs) → i.csr = 0x251#12 →
      (s.iselVS.within 0x30 0x3F ∨ (s.iselVS.within 0x70 0xFF ∧ ¬ (1 ≤ s.vgein ∧ s.vgein ≤ s.cfg.geilen))) →
      exec i s = .fault .illegalInstruction) ∧
    (s.mode = .vs → i.csr = 0x151#12 → s.ms .b60 = true → s.hs .b60 = true →
      (s.iselVS.within 0x30 0x3F ∨
        (s.iselVS.within 0x70 0xFF ∧ s.ms .b58 = true ∧
          (s.hs .b58 = false ∨ ¬ (1 ≤ s.vgein ∧ s.vgein ≤ s.cfg.geilen)))) →
      exec i s = .fault .virtualInstruction)

/-- R258, R292: `vstopei` by its own number and `stopei` with V = 1, in every mode. That `stopei` from VS-mode with
`mstateen0[58]` zero is illegal even when VGEIN is invalid is decision D8, and the outcome in U-mode is decision D15
(UNVERIFIED, log 18). -/
def Obligations.VstopeiAndStopei : Prop :=
  ∀ (i : Instr) (s : State), s.cfg.wf = true → s.cfg.hasH = true →
    (i.csr = 0x25C#12 → s.mode = .u → exec i s = .fault .illegalInstruction) ∧
    (s.mode.virt = true → (i.csr = 0x25C#12 ∨ i.csr = 0x15C#12) → s.cfg.hasImsic = true → s.ms .b58 = false →
      exec i s = .fault .illegalInstruction) ∧
    (¬ (s.cfg.hasImsic = true ∧ s.ms .b58 = false) →
      ((s.mode.virt = true ∧ i.csr = 0x25C#12) ∨ (s.mode = .vu ∧ i.csr = 0x15C#12)) →
      exec i s = .fault .virtualInstruction) ∧
    ((s.mode = .m ∨ s.mode = .hs) → i.csr = 0x25C#12 →
      (s.cfg.hasImsic = false ∨ (s.mode = .hs ∧ s.ms .b58 = false) ∨ ¬ (1 ≤ s.vgein ∧ s.vgein ≤ s.cfg.geilen) →
        exec i s = .fault .illegalInstruction) ∧
      (s.cfg.hasImsic = true → (s.mode = .hs → s.ms .b58 = true) → 1 ≤ s.vgein → s.vgein ≤ s.cfg.geilen →
        accessCheck i.csr (use i).writes s = .ok (.own .vstopei) ∧ ∃ t, exec i s = .next t)) ∧
    (s.mode = .vs → i.csr = 0x15C#12 → ¬ (s.cfg.hasImsic = true ∧ s.ms .b58 = false) →
      (s.cfg.hasImsic = false ∨ s.hs .b58 = false ∨ ¬ (1 ≤ s.vgein ∧ s.vgein ≤ s.cfg.geilen) →
        exec i s = .fault .virtualInstruction) ∧
      (s.cfg.hasImsic = true → s.hs .b58 = true → 1 ≤ s.vgein → s.vgein ≤ s.cfg.geilen →
        accessCheck i.csr (use i).writes s = .ok (.own .vstopei) ∧ ∃ t, exec i s = .next t))

/-! ### The aliases of Smcsrind and Sscsrind, and numbers outside the spec -/

/-- R169, R358: `mireg2`-`mireg6`. From M-mode, with `miselect` in the AIA's ranges, an illegal instruction exception, with or
without an IMSIC; below M-mode an illegal instruction exception (R351, decision D15). Refused for other select values, and
as no CSR of this hardware without Smcsrind (decision D20, log 20). -/
def Obligations.MiregAliases : Prop :=
  ∀ (i : Instr) (s : State), i.csr ∈ [0x352#12, 0x353#12, 0x355#12, 0x356#12, 0x357#12] →
    (s.cfg.hasSmcsrind = false → exec i s = .refused (.otherCsr i.csr)) ∧
    (s.cfg.hasSmcsrind = true → s.mode ≠ .m → exec i s = .fault .illegalInstruction) ∧
    (s.cfg.hasSmcsrind = true → s.mode = .m →
      (s.iselM.inAiaRange → exec i s = .fault .illegalInstruction) ∧
      (¬ s.iselM.inAiaRange → exec i s = .refused .smcsrind))

/-- R212, R358: `sireg2`-`sireg6` with V = 0. From M-mode and HS-mode, with `siselect` in the AIA's ranges, an illegal
instruction exception, with or without an IMSIC. Refused for other select values, where the state-enable control of these
CSRs would decide, from U-mode, and as no CSR of this hardware without Sscsrind (decision D20, log 20). -/
def Obligations.SiregAliases : Prop :=
  ∀ (i : Instr) (s : State), i.csr ∈ [0x152#12, 0x153#12, 0x155#12, 0x156#12, 0x157#12] →
    (s.cfg.hasSscsrind = false → exec i s = .refused (.otherCsr i.csr)) ∧
    (s.cfg.hasSscsrind = true → s.mode = .u → exec i s = .refused .sscsrind) ∧
    (s.cfg.hasSscsrind = true → (s.mode = .m ∨ s.mode = .hs) →
      (s.iselS.inAiaRange → (s.mode = .hs → s.ms .b60 = true) → exec i s = .fault .illegalInstruction) ∧
      (¬ s.iselS.inAiaRange ∨ (s.mode = .hs ∧ s.ms .b60 = false) → exec i s = .refused .sscsrind))

/-- R260, R358: by the value of `vsiselect`, `vsireg2`-`vsireg6` from M-mode or HS-mode are illegal instruction exceptions and
`sireg2`-`sireg6` from VS-mode virtual instruction exceptions in the AIA's ranges. Refused for other select values, from
VU-mode and U-mode, for direct access with V = 1, where the state-enable bits would decide, and as no CSR of this hardware
without Sscsrind (`vsireg2`-`vsireg6` also without the hypervisor extension) (decision D20, log 20). -/
def Obligations.VsiregAliases : Prop :=
  ∀ (i : Instr) (s : State),
    (i.csr ∈ [0x252#12, 0x253#12, 0x255#12, 0x256#12, 0x257#12] →
      (s.cfg.hasSscsrind = false ∨ s.cfg.hasH = false → exec i s = .refused (.otherCsr i.csr)) ∧
      (s.cfg.hasSscsrind = true → s.cfg.hasH = true →
        ((s.mode = .m ∨ (s.mode = .hs ∧ s.ms .b60 = true)) → s.iselVS.inAiaRange →
          exec i s = .fault .illegalInstruction) ∧
        (s.mode = .u ∨ s.mode.virt = true ∨ ¬ s.iselVS.inAiaRange ∨ (s.mode = .hs ∧ s.ms .b60 = false) →
          exec i s = .refused .sscsrind))) ∧
    (i.csr ∈ [0x152#12, 0x153#12, 0x155#12, 0x156#12, 0x157#12] → s.mode.virt = true →
      (s.cfg.hasSscsrind = false → exec i s = .refused (.otherCsr i.csr)) ∧
      (s.cfg.hasSscsrind = true →
        (s.mode = .vs → s.ms .b60 = true → s.hs .b60 = true → s.iselVS.inAiaRange →
          exec i s = .fault .virtualInstruction) ∧
        (s.mode = .vu ∨ ¬ s.iselVS.inAiaRange ∨ s.ms .b60 = false ∨ s.hs .b60 = false →
          exec i s = .refused .sscsrind)))

/-- R101, R127, R350, R358: in every state an instruction is refused as another CSR exactly when its CSR number is none of the
56 of the spec, or is one of the 15 alias numbers on a hart without the extension that defines it (decision D20, log 20);
the refusal names that number. -/
def Obligations.UnknownCsrNumbersAreRefused : Prop :=
  ∀ (i : Instr) (s : State) (n : CsrNum),
    exec i s = .refused (.otherCsr n) ↔
      n = i.csr ∧
      (i.wellFormed = false ∨
        (i.csr ∈ [0x352#12, 0x353#12, 0x355#12, 0x356#12, 0x357#12] ∧ s.cfg.hasSmcsrind = false) ∨
        (i.csr ∈ [0x152#12, 0x153#12, 0x155#12, 0x156#12, 0x157#12] ∧ s.cfg.hasSscsrind = false) ∨
        (i.csr ∈ [0x252#12, 0x253#12, 0x255#12, 0x256#12, 0x257#12] ∧
          (s.cfg.hasSscsrind = false ∨ s.cfg.hasH = false)))

/-! ### The window protocol -/

/-- R102, R164, R166 under `PlainStorage` (95_test_vectors.md P1): in M-mode, writing a number of a populated range to
`miselect`, then a value to `mireg`, then reading `mireg`, gives back the value, in three consecutive instructions. -/
def Obligations.MachineWindowReadsBack : Prop :=
  ∀ (s : State) (wmask : Vector Word 14) (rn rv rd : Reg), s.wf = true → s.cfg.intrLogic = .plainStorage wmask →
    s.mode = .m → rd ≠ 0 →
    ((0x30 ≤ (s.readReg rn).toNat ∧ (s.readReg rn).toNat ≤ 0x3F) ∨
      (s.cfg.hasImsic = true ∧ 0x70 ≤ (s.readReg rn).toNat ∧ (s.readReg rn).toNat ≤ 0xFF)) →
    ∃ s1 s2 s3, exec (.csrrw 0 0x350#12 rn) s = .next s1 ∧ exec (.csrrw 0 0x351#12 rv) s1 = .next s2 ∧
      exec (.csrrs rd 0x351#12 0) s2 = .next s3 ∧ s3.readReg rd = s.readReg rv

/-- R102, R103, R249, R262, R264 under `PlainStorage` (95_test_vectors.md P3, P5): what a guest writes through `siselect` and
`sireg` is what M-mode and HS-mode each, in the resulting state, read through `vsireg`; `siselect` is untouched. That a wider
mode reads a value written by a narrower one zero-extended is how the model stores it (DESIGN CHOICE, log 4). -/
def Obligations.GuestWindowIsTheHypervisorsVsWindow : Prop :=
  ∀ (s : State) (wmask : Vector Word 14) (rn rv rd : Reg), s.wf = true → s.cfg.intrLogic = .plainStorage wmask →
    s.mode = .vs → rd ≠ 0 →
    (∀ b, s.ms b = true) → (∀ b, s.hs b = true) → 1 ≤ s.vgein → s.vgein ≤ s.cfg.geilen →
    0x70 ≤ (s.readReg rn).toNat → (s.readReg rn).toNat ≤ 0xFF →
    ∃ s1 s2, exec (.csrrw 0 0x150#12 rn) s = .next s1 ∧ exec (.csrrw 0 0x151#12 rv) s1 = .next s2 ∧
      s2.iselS = s.iselS ∧
      ∀ md, (md = .m ∨ md = .hs) →
        ∃ s3, exec (.csrrs rd 0x251#12 0) { s2 with mode := md } = .next s3 ∧ s3.readReg rd = s.readReg rv
end

