-- ==== Sys2Proof/Laws/Csr.lean ====
section
/-! SUPPORT. The CSR numbers: each of the 41 is found under its own number, and the access check goes to its row. -/

namespace Sys2Proof.Machine

@[simp] theorem ofNumber_number (e : Csr) : Csr.ofNumber e.number = some e := by cases e <;> decide

@[simp] theorem windowAlias_number (e : Csr) : windowAlias e.number = none := by cases e <;> decide

theorem number_of_ofNumber {n : CsrNum} {e : Csr} (h : Csr.ofNumber n = some e) : e.number = n := by
  have := List.find?_some h
  simpa using this

/-- No two CSRs share a number. -/
theorem number_injective {e e' : Csr} (h : e.number = e'.number) : e = e' := by
  have h1 := ofNumber_number e
  rw [h, ofNumber_number] at h1
  exact (Option.some.inj h1).symm

/-- The access check of one of the 41 CSRs is the check of its row. -/
@[simp] theorem accessCheck_number (e : Csr) (wr : Bool) (s : State) : accessCheck e.number wr s = csrCheck e wr s := by
  simp only [accessCheck, windowAlias_number, ofNumber_number]

/-- The access check of an alias number is that of its window. -/
theorem accessCheck_alias {n : CsrNum} {l : Level} (h : windowAlias n = some l) (wr : Bool) (s : State) :
    accessCheck n wr s = aliasCheck l n s := by
  simp only [accessCheck, h]

/-- An allowed access is always one to a CSR of the table. -/
theorem accessCheck_ok {n : CsrNum} {wr : Bool} {s : State} {t : Target} (h : accessCheck n wr s = .ok t) :
    ∃ e : Csr, e.number = n ∧ csrCheck e wr s = .ok t := by
  unfold accessCheck at h
  split at h
  · next l _ =>
    exfalso
    cases l <;> simp only [aliasCheck] at h <;> (repeat' split at h) <;> simp at h
  · split at h
    · next e he => exact ⟨e, number_of_ofNumber he, h⟩
    · simp at h

end Sys2Proof.Machine
end

