-- ==== Sys2Proof/Laws/State.lean ====
section
/-! SUPPORT. The fields of a state after each update: one lemma per field and update. -/

namespace Sys2Proof.Machine

variable (s : State)

/-! ### `writeReg` -/

@[simp] theorem writeReg_cfg (r : Reg) (v : Word) : (s.writeReg r v).cfg = s.cfg := by
  unfold State.writeReg; split <;> rfl
@[simp] theorem writeReg_pc (r : Reg) (v : Word) : (s.writeReg r v).pc = s.pc := by
  unfold State.writeReg; split <;> rfl
@[simp] theorem writeReg_mode (r : Reg) (v : Word) : (s.writeReg r v).mode = s.mode := by
  unfold State.writeReg; split <;> rfl
@[simp] theorem writeReg_iselM (r : Reg) (v : Word) : (s.writeReg r v).iselM = s.iselM := by
  unfold State.writeReg; split <;> rfl
@[simp] theorem writeReg_iselS (r : Reg) (v : Word) : (s.writeReg r v).iselS = s.iselS := by
  unfold State.writeReg; split <;> rfl
@[simp] theorem writeReg_iselVS (r : Reg) (v : Word) : (s.writeReg r v).iselVS = s.iselVS := by
  unfold State.writeReg; split <;> rfl
@[simp] theorem writeReg_intr (r : Reg) (v : Word) : (s.writeReg r v).intr = s.intr := by
  unfold State.writeReg; split <;> rfl
@[simp] theorem writeReg_vgein (r : Reg) (v : Word) : (s.writeReg r v).vgein = s.vgein := by
  unfold State.writeReg; split <;> rfl
@[simp] theorem writeReg_mstateen0 (r : Reg) (v : Word) : (s.writeReg r v).mstateen0 = s.mstateen0 := by
  unfold State.writeReg; split <;> rfl
@[simp] theorem writeReg_hstateen0 (r : Reg) (v : Word) : (s.writeReg r v).hstateen0 = s.hstateen0 := by
  unfold State.writeReg; split <;> rfl
@[simp] theorem writeReg_mem (r : Reg) (v : Word) : (s.writeReg r v).mem = s.mem := by
  unfold State.writeReg; split <;> rfl
@[simp] theorem writeReg_tick (r : Reg) (v : Word) : (s.writeReg r v).tick = s.tick := by
  unfold State.writeReg; split <;> rfl

/-! ### `advancePc` -/

@[simp] theorem advancePc_cfg : (s.advancePc).cfg = s.cfg := rfl
@[simp] theorem advancePc_x : (s.advancePc).x = s.x := rfl
@[simp] theorem advancePc_pc : (s.advancePc).pc = fit s.xlen (s.pc + 4) := rfl
@[simp] theorem advancePc_mode : (s.advancePc).mode = s.mode := rfl
@[simp] theorem advancePc_iselM : (s.advancePc).iselM = s.iselM := rfl
@[simp] theorem advancePc_iselS : (s.advancePc).iselS = s.iselS := rfl
@[simp] theorem advancePc_iselVS : (s.advancePc).iselVS = s.iselVS := rfl
@[simp] theorem advancePc_intr : (s.advancePc).intr = s.intr := rfl
@[simp] theorem advancePc_vgein : (s.advancePc).vgein = s.vgein := rfl
@[simp] theorem advancePc_mstateen0 : (s.advancePc).mstateen0 = s.mstateen0 := rfl
@[simp] theorem advancePc_hstateen0 : (s.advancePc).hstateen0 = s.hstateen0 := rfl
@[simp] theorem advancePc_mem : (s.advancePc).mem = s.mem := rfl
@[simp] theorem advancePc_tick : (s.advancePc).tick = s.tick := rfl

/-! ### `bumpTick` -/

@[simp] theorem bumpTick_cfg : (s.bumpTick).cfg = s.cfg := rfl
@[simp] theorem bumpTick_x : (s.bumpTick).x = s.x := rfl
@[simp] theorem bumpTick_pc : (s.bumpTick).pc = s.pc := rfl
@[simp] theorem bumpTick_mode : (s.bumpTick).mode = s.mode := rfl
@[simp] theorem bumpTick_iselM : (s.bumpTick).iselM = s.iselM := rfl
@[simp] theorem bumpTick_iselS : (s.bumpTick).iselS = s.iselS := rfl
@[simp] theorem bumpTick_iselVS : (s.bumpTick).iselVS = s.iselVS := rfl
@[simp] theorem bumpTick_intr : (s.bumpTick).intr = s.intr := rfl
@[simp] theorem bumpTick_vgein : (s.bumpTick).vgein = s.vgein := rfl
@[simp] theorem bumpTick_mstateen0 : (s.bumpTick).mstateen0 = s.mstateen0 := rfl
@[simp] theorem bumpTick_hstateen0 : (s.bumpTick).hstateen0 = s.hstateen0 := rfl
@[simp] theorem bumpTick_mem : (s.bumpTick).mem = s.mem := rfl
@[simp] theorem bumpTick_tick : (s.bumpTick).tick = s.tick + 1 := rfl

/-! ### `withIntr` -/

@[simp] theorem withIntr_cfg (i : Intr) : (s.withIntr i).cfg = s.cfg := rfl
@[simp] theorem withIntr_x (i : Intr) : (s.withIntr i).x = s.x := rfl
@[simp] theorem withIntr_pc (i : Intr) : (s.withIntr i).pc = s.pc := rfl
@[simp] theorem withIntr_mode (i : Intr) : (s.withIntr i).mode = s.mode := rfl
@[simp] theorem withIntr_iselM (i : Intr) : (s.withIntr i).iselM = s.iselM := rfl
@[simp] theorem withIntr_iselS (i : Intr) : (s.withIntr i).iselS = s.iselS := rfl
@[simp] theorem withIntr_iselVS (i : Intr) : (s.withIntr i).iselVS = s.iselVS := rfl
@[simp] theorem withIntr_intr (i : Intr) : (s.withIntr i).intr = i := rfl
@[simp] theorem withIntr_vgein (i : Intr) : (s.withIntr i).vgein = s.vgein := rfl
@[simp] theorem withIntr_mstateen0 (i : Intr) : (s.withIntr i).mstateen0 = s.mstateen0 := rfl
@[simp] theorem withIntr_hstateen0 (i : Intr) : (s.withIntr i).hstateen0 = s.hstateen0 := rfl
@[simp] theorem withIntr_mem (i : Intr) : (s.withIntr i).mem = s.mem := rfl
@[simp] theorem withIntr_tick (i : Intr) : (s.withIntr i).tick = s.tick := rfl

/-! ### `withCsrStateOf` -/

@[simp] theorem withCsrStateOf_cfg (a : State) : (s.withCsrStateOf a).cfg = s.cfg := rfl
@[simp] theorem withCsrStateOf_x (a : State) : (s.withCsrStateOf a).x = s.x := rfl
@[simp] theorem withCsrStateOf_pc (a : State) : (s.withCsrStateOf a).pc = s.pc := rfl
@[simp] theorem withCsrStateOf_mode (a : State) : (s.withCsrStateOf a).mode = s.mode := rfl
@[simp] theorem withCsrStateOf_iselM (a : State) : (s.withCsrStateOf a).iselM = a.iselM.hold (s.cfg.iselBits .M) (s.cfg.iselCustom .M) := rfl
@[simp] theorem withCsrStateOf_iselS (a : State) : (s.withCsrStateOf a).iselS = a.iselS.hold (s.cfg.iselBits .S) (s.cfg.iselCustom .S) := rfl
@[simp] theorem withCsrStateOf_iselVS (a : State) : (s.withCsrStateOf a).iselVS = a.iselVS.hold (s.cfg.iselBits .VS) (s.cfg.iselCustom .VS) := rfl
@[simp] theorem withCsrStateOf_intr (a : State) : (s.withCsrStateOf a).intr = a.intr := rfl
@[simp] theorem withCsrStateOf_vgein (a : State) : (s.withCsrStateOf a).vgein = a.vgein := rfl
@[simp] theorem withCsrStateOf_mstateen0 (a : State) : (s.withCsrStateOf a).mstateen0 = 
    { a.mstateen0 with bit58 := a.mstateen0.bit58 && s.cfg.hasImsic } := rfl
@[simp] theorem withCsrStateOf_hstateen0 (a : State) : (s.withCsrStateOf a).hstateen0 = 
    { a.hstateen0 with bit58 := a.hstateen0.bit58 && s.cfg.hstateen058Impl } := rfl
@[simp] theorem withCsrStateOf_mem (a : State) : (s.withCsrStateOf a).mem = s.mem := rfl
@[simp] theorem withCsrStateOf_tick (a : State) : (s.withCsrStateOf a).tick = s.tick := rfl

/-! ### `storeAtPc` -/

@[simp] theorem storeAtPc_cfg (bs : List Byte) : (s.storeAtPc bs).cfg = s.cfg := rfl
@[simp] theorem storeAtPc_x (bs : List Byte) : (s.storeAtPc bs).x = s.x := rfl
@[simp] theorem storeAtPc_pc (bs : List Byte) : (s.storeAtPc bs).pc = s.pc := rfl
@[simp] theorem storeAtPc_mode (bs : List Byte) : (s.storeAtPc bs).mode = s.mode := rfl
@[simp] theorem storeAtPc_iselM (bs : List Byte) : (s.storeAtPc bs).iselM = s.iselM := rfl
@[simp] theorem storeAtPc_iselS (bs : List Byte) : (s.storeAtPc bs).iselS = s.iselS := rfl
@[simp] theorem storeAtPc_iselVS (bs : List Byte) : (s.storeAtPc bs).iselVS = s.iselVS := rfl
@[simp] theorem storeAtPc_intr (bs : List Byte) : (s.storeAtPc bs).intr = s.intr := rfl
@[simp] theorem storeAtPc_vgein (bs : List Byte) : (s.storeAtPc bs).vgein = s.vgein := rfl
@[simp] theorem storeAtPc_mstateen0 (bs : List Byte) : (s.storeAtPc bs).mstateen0 = s.mstateen0 := rfl
@[simp] theorem storeAtPc_hstateen0 (bs : List Byte) : (s.storeAtPc bs).hstateen0 = s.hstateen0 := rfl
@[simp] theorem storeAtPc_mem (bs : List Byte) : (s.storeAtPc bs).mem = s.mem.writeBytes s.fetchAddr bs := rfl
@[simp] theorem storeAtPc_tick (bs : List Byte) : (s.storeAtPc bs).tick = s.tick := rfl

/-! ### `withIsel` -/

@[simp] theorem withIsel_cfg (l : Level) (v : Isel) : (s.withIsel l v).cfg = s.cfg := by
  cases l <;> rfl
@[simp] theorem withIsel_x (l : Level) (v : Isel) : (s.withIsel l v).x = s.x := by
  cases l <;> rfl
@[simp] theorem withIsel_pc (l : Level) (v : Isel) : (s.withIsel l v).pc = s.pc := by
  cases l <;> rfl
@[simp] theorem withIsel_mode (l : Level) (v : Isel) : (s.withIsel l v).mode = s.mode := by
  cases l <;> rfl
@[simp] theorem withIsel_intr (l : Level) (v : Isel) : (s.withIsel l v).intr = s.intr := by
  cases l <;> rfl
@[simp] theorem withIsel_vgein (l : Level) (v : Isel) : (s.withIsel l v).vgein = s.vgein := by
  cases l <;> rfl
@[simp] theorem withIsel_mstateen0 (l : Level) (v : Isel) : (s.withIsel l v).mstateen0 = s.mstateen0 := by
  cases l <;> rfl
@[simp] theorem withIsel_hstateen0 (l : Level) (v : Isel) : (s.withIsel l v).hstateen0 = s.hstateen0 := by
  cases l <;> rfl
@[simp] theorem withIsel_mem (l : Level) (v : Isel) : (s.withIsel l v).mem = s.mem := by
  cases l <;> rfl
@[simp] theorem withIsel_tick (l : Level) (v : Isel) : (s.withIsel l v).tick = s.tick := by
  cases l <;> rfl

@[simp] theorem writeReg_xlen (r : Reg) (v : Word) : (s.writeReg r v).xlen = s.xlen := by simp [State.xlen]

/-! ### `complete` -/

@[simp] theorem complete_cfg (r : Reg) (v : Word) : (s.complete r v).cfg = s.cfg := by
  simp [State.complete]
@[simp] theorem complete_x (r : Reg) (v : Word) : (s.complete r v).x = (s.writeReg r v).x := by
  simp [State.complete]
@[simp] theorem complete_pc (r : Reg) (v : Word) : (s.complete r v).pc = fit s.xlen (s.pc + 4) := by
  simp [State.complete]
@[simp] theorem complete_mode (r : Reg) (v : Word) : (s.complete r v).mode = s.mode := by
  simp [State.complete]
@[simp] theorem complete_iselM (r : Reg) (v : Word) : (s.complete r v).iselM = s.iselM := by
  simp [State.complete]
@[simp] theorem complete_iselS (r : Reg) (v : Word) : (s.complete r v).iselS = s.iselS := by
  simp [State.complete]
@[simp] theorem complete_iselVS (r : Reg) (v : Word) : (s.complete r v).iselVS = s.iselVS := by
  simp [State.complete]
@[simp] theorem complete_intr (r : Reg) (v : Word) : (s.complete r v).intr = s.intr := by
  simp [State.complete]
@[simp] theorem complete_vgein (r : Reg) (v : Word) : (s.complete r v).vgein = s.vgein := by
  simp [State.complete]
@[simp] theorem complete_mstateen0 (r : Reg) (v : Word) : (s.complete r v).mstateen0 = s.mstateen0 := by
  simp [State.complete]
@[simp] theorem complete_hstateen0 (r : Reg) (v : Word) : (s.complete r v).hstateen0 = s.hstateen0 := by
  simp [State.complete]
@[simp] theorem complete_mem (r : Reg) (v : Word) : (s.complete r v).mem = s.mem := by
  simp [State.complete]
@[simp] theorem complete_tick (r : Reg) (v : Word) : (s.complete r v).tick = s.tick + 1 := by
  simp [State.complete]

/-! ### The width follows the mode and the configuration -/

@[simp] theorem withIntr_xlen (i : Intr) : (s.withIntr i).xlen = s.xlen := rfl
@[simp] theorem withIsel_xlen (l : Level) (v : Isel) : (s.withIsel l v).xlen = s.xlen := by simp [State.xlen]
@[simp] theorem complete_xlen (r : Reg) (v : Word) : (s.complete r v).xlen = s.xlen := by simp [State.xlen]

/-! ### Select registers -/

@[simp] theorem withIsel_isel_self (l : Level) (v : Isel) : (s.withIsel l v).isel l = v := by cases l <;> rfl

theorem withIsel_isel_of_ne {l l' : Level} (h : l' ≠ l) (v : Isel) : (s.withIsel l v).isel l' = s.isel l' := by
  cases l <;> cases l' <;> first | rfl | exact absurd rfl h

@[simp] theorem complete_isel (r : Reg) (v : Word) (l : Level) : (s.complete r v).isel l = s.isel l := by
  cases l <;> simp [State.isel]

@[simp] theorem withIntr_isel (i : Intr) (l : Level) : (s.withIntr i).isel l = s.isel l := by cases l <;> rfl

@[simp] theorem withCsrStateOf_xlen (a : State) : (s.withCsrStateOf a).xlen = s.xlen := rfl

@[simp] theorem withCsrStateOf_isel (a : State) (l : Level) :
    (s.withCsrStateOf a).isel l = (a.isel l).hold (s.cfg.iselBits l) (s.cfg.iselCustom l) := by cases l <;> rfl

/-! ### Writes of the interrupt logic

`PlainStorage` changes `intr` only; the open functions may change all of the CSR state. -/

/-- What the interrupt logic may make of a state. -/
def intrWrite (s t : State) : Prop :=
  (∃ wmask i, s.cfg.intrLogic = .plainStorage wmask ∧ t = s.withIntr i) ∨
  (s.cfg.intrLogic = .unspecified ∧ ∃ a, t = s.withCsrStateOf a)

/-- All that a write of a 64-bit register can do. -/
theorem wr64_cases (r : Reg64) (v : Word) : intrWrite s (wr64 r s v) := by
  unfold wr64; split
  · exact .inr ⟨by assumption, _, rfl⟩
  · exact .inl ⟨_, _, by assumption, rfl⟩

/-- All that a write of a register with its own width can do. -/
theorem wrW_cases (r : RegW) (v : Word) : intrWrite s (wrW r s v) := by
  unfold wrW; split
  · exact .inr ⟨by assumption, _, rfl⟩
  · exact .inl ⟨_, _, by assumption, rfl⟩

/-- All that a write of an indirectly accessed register can do. -/
theorem iregWr_cases (l : Level) (file n : Nat) (x : Xlen) (v : Word) : intrWrite s (iregWr l file n x s v) := by
  unfold iregWr; split
  · exact .inr ⟨by assumption, _, rfl⟩
  · exact .inl ⟨_, _, by assumption, rfl⟩

/-- All that a CSR write can do: nothing, replace one select register, or what the interrupt logic does. -/
theorem csrWrite_cases (t : Target) (v : Word) :
    (∃ l, t = .top l ∧ csrWrite t s v = s) ∨
    (∃ l, t = .sel l ∧
      csrWrite t s v = s.withIsel l (Isel.legalise (s.cfg.iselBits l) (s.cfg.iselCustom l) s.xlen v)) ∨
    ((∀ l, t ≠ .sel l) ∧ intrWrite s (csrWrite t s v)) := by
  cases t with
  | sel l => exact .inr (.inl ⟨l, rfl, rfl⟩)
  | full r => exact .inr (.inr ⟨by simp, wr64_cases s _ _⟩)
  | high r => exact .inr (.inr ⟨by simp, wr64_cases s _ _⟩)
  | own r => exact .inr (.inr ⟨by simp, wrW_cases s _ _⟩)
  | top l => exact .inl ⟨l, rfl, rfl⟩
  | ireg l file n => exact .inr (.inr ⟨by simp, iregWr_cases s _ _ _ _ _⟩)

/-! ### `csrWrite`: the fields no CSR write changes -/

@[simp] theorem csrWrite_cfg (t : Target) (v : Word) : (csrWrite t s v).cfg = s.cfg := by
  rcases csrWrite_cases s t v with ⟨_, _, h⟩ | ⟨_, _, h⟩ | ⟨_, ⟨_, _, _, h⟩ | ⟨_, _, h⟩⟩ <;> simp [h]
@[simp] theorem csrWrite_x (t : Target) (v : Word) : (csrWrite t s v).x = s.x := by
  rcases csrWrite_cases s t v with ⟨_, _, h⟩ | ⟨_, _, h⟩ | ⟨_, ⟨_, _, _, h⟩ | ⟨_, _, h⟩⟩ <;> simp [h]
@[simp] theorem csrWrite_pc (t : Target) (v : Word) : (csrWrite t s v).pc = s.pc := by
  rcases csrWrite_cases s t v with ⟨_, _, h⟩ | ⟨_, _, h⟩ | ⟨_, ⟨_, _, _, h⟩ | ⟨_, _, h⟩⟩ <;> simp [h]
@[simp] theorem csrWrite_mode (t : Target) (v : Word) : (csrWrite t s v).mode = s.mode := by
  rcases csrWrite_cases s t v with ⟨_, _, h⟩ | ⟨_, _, h⟩ | ⟨_, ⟨_, _, _, h⟩ | ⟨_, _, h⟩⟩ <;> simp [h]
@[simp] theorem csrWrite_mem (t : Target) (v : Word) : (csrWrite t s v).mem = s.mem := by
  rcases csrWrite_cases s t v with ⟨_, _, h⟩ | ⟨_, _, h⟩ | ⟨_, ⟨_, _, _, h⟩ | ⟨_, _, h⟩⟩ <;> simp [h]
@[simp] theorem csrWrite_tick (t : Target) (v : Word) : (csrWrite t s v).tick = s.tick := by
  rcases csrWrite_cases s t v with ⟨_, _, h⟩ | ⟨_, _, h⟩ | ⟨_, ⟨_, _, _, h⟩ | ⟨_, _, h⟩⟩ <;> simp [h]
@[simp] theorem csrWrite_xlen (t : Target) (v : Word) : (csrWrite t s v).xlen = s.xlen := by simp [State.xlen]

/-! ### `csrWrite` where the open functions do not come in: a select register, or `PlainStorage` -/

/-- The write of this target is not left to the open functions of the interrupt logic. -/
def Target.settled (t : Target) (s : State) : Prop := (∃ l, t = .sel l) ∨ ∃ wmask, s.cfg.intrLogic = .plainStorage wmask

theorem csrWrite_vgein {t : Target} (v : Word) (h : t.settled s) : (csrWrite t s v).vgein = s.vgein := by
  rcases csrWrite_cases s t v with ⟨_, _, e⟩ | ⟨_, _, e⟩ | ⟨hn, ⟨_, _, _, e⟩ | ⟨hu, _, _⟩⟩
  · simp [e]
  · simp [e]
  · simp [e]
  · rcases h with ⟨l, hl⟩ | ⟨_, hp⟩
    · exact absurd hl (hn l)
    · rw [hu] at hp; cases hp

theorem csrWrite_mstateen0 {t : Target} (v : Word) (h : t.settled s) : (csrWrite t s v).mstateen0 = s.mstateen0 := by
  rcases csrWrite_cases s t v with ⟨_, _, e⟩ | ⟨_, _, e⟩ | ⟨hn, ⟨_, _, _, e⟩ | ⟨hu, _, _⟩⟩
  · simp [e]
  · simp [e]
  · simp [e]
  · rcases h with ⟨l, hl⟩ | ⟨_, hp⟩
    · exact absurd hl (hn l)
    · rw [hu] at hp; cases hp

theorem csrWrite_hstateen0 {t : Target} (v : Word) (h : t.settled s) : (csrWrite t s v).hstateen0 = s.hstateen0 := by
  rcases csrWrite_cases s t v with ⟨_, _, e⟩ | ⟨_, _, e⟩ | ⟨hn, ⟨_, _, _, e⟩ | ⟨hu, _, _⟩⟩
  · simp [e]
  · simp [e]
  · simp [e]
  · rcases h with ⟨l, hl⟩ | ⟨_, hp⟩
    · exact absurd hl (hn l)
    · rw [hu] at hp; cases hp

/-- A settled write changes no select register but its own target. -/
theorem csrWrite_isel {t : Target} (v : Word) (h : t.settled s) (l : Level) (hl : t ≠ .sel l) :
    (csrWrite t s v).isel l = s.isel l := by
  rcases csrWrite_cases s t v with ⟨_, _, e⟩ | ⟨l', e', e⟩ | ⟨hn, ⟨_, _, _, e⟩ | ⟨hu, _, _⟩⟩
  · simp [e]
  · rw [e]; apply withIsel_isel_of_ne; rintro rfl; exact hl e'
  · simp [e]
  · rcases h with ⟨l', hl'⟩ | ⟨_, hp⟩
    · exact absurd hl' (hn l')
    · rw [hu] at hp; cases hp

/-- A write of a select register is the legalised store (10_state.md R30). -/
@[simp] theorem csrWrite_sel (l : Level) (v : Word) :
    csrWrite (.sel l) s v = s.withIsel l (Isel.legalise (s.cfg.iselBits l) (s.cfg.iselCustom l) s.xlen v) := rfl

@[simp] theorem csrWrite_top (l : Level) (v : Word) : csrWrite (.top l) s v = s := rfl

end Sys2Proof.Machine
end

