-- ==== Sys2Proof/Laws/Access.lean ====
section
/-! SUPPORT. What each part of the access check can answer, said once: the class of a select value, the windows, and the
checks with V = 0 and V = 1. -/

namespace Sys2Proof.Machine

/-! ### Classes of select values -/

theorem selClass_custom_iff (i : Isel) : i.selClass = .custom ↔ i.custom = true := by
  simp only [Isel.selClass]; split
  · simp_all
  · split
    · simp_all
    · split <;> simp_all

theorem selClass_prio_iff (i : Isel) : i.selClass = .prio ↔ i.within 0x30 0x3F := by
  simp only [Isel.selClass, Isel.within]; split
  · simp_all
  · split
    · simp_all
    · split <;> simp_all

theorem selClass_eint_iff (i : Isel) : i.selClass = .eint ↔ i.within 0x70 0xFF := by
  simp only [Isel.selClass, Isel.within]; split
  · simp_all
  · split
    · simp only [reduceCtorEq, false_iff]; omega
    · split <;> simp_all

theorem selClass_reserved_iff (i : Isel) : i.selClass = .reserved ↔ i.custom = false ∧ ¬ i.inAiaRange := by
  simp only [Isel.selClass, Isel.inAiaRange, Isel.within]; split
  · simp_all
  · split
    · simp_all
    · split <;> simp_all

theorem aiaRange_iff (i : Isel) : i.aiaRange = true ↔ i.inAiaRange := by
  simp only [Isel.aiaRange, Bool.or_eq_true, beq_iff_eq, selClass_prio_iff, selClass_eint_iff, Isel.inAiaRange]

theorem aiaRange_false_iff (i : Isel) : i.aiaRange = false ↔ ¬ i.inAiaRange := by
  rw [← aiaRange_iff]; simp

/-! ### State-enable bits and VGEIN -/

theorem vgeinValid_iff (s : State) : s.vgeinValid = true ↔ 1 ≤ s.vgein ∧ s.vgein ≤ s.cfg.geilen := by
  simp [State.vgeinValid]

theorem vgeinValid_false_iff (s : State) : s.vgeinValid = false ↔ ¬ (1 ≤ s.vgein ∧ s.vgein ≤ s.cfg.geilen) := by
  rw [← vgeinValid_iff]; simp

theorem ms_b60 (s : State) : s.ms .b60 = (!s.cfg.hasSmstateen || s.mstateen0.bit60) := by
  simp only [State.ms, State.mstateen0Bit, StateEnable.bit]
  cases s.cfg.hasSmstateen <;> cases s.mstateen0.bit60 <;> rfl

theorem ms_b59 (s : State) : s.ms .b59 = (!s.cfg.hasSmstateen || s.mstateen0.bit59) := by
  simp only [State.ms, State.mstateen0Bit, StateEnable.bit]
  cases s.cfg.hasSmstateen <;> cases s.mstateen0.bit59 <;> rfl

theorem ms_b58 (s : State) : s.ms .b58 = (!s.cfg.hasSmstateen || !s.cfg.hasImsic || s.mstateen0.bit58) := by
  simp only [State.ms, State.mstateen0Bit, StateEnable.bit]
  cases s.cfg.hasSmstateen <;> cases s.cfg.hasImsic <;> simp

/-- Without an IMSIC bit 58 of `mstateen0` lets every access through. -/
theorem ms_b58_of_not_imsic {s : State} (h : s.cfg.hasImsic = false) : s.ms .b58 = true := by simp [ms_b58, h]

/-! ### The windows -/

/-- All that the check of an indirect register can answer. -/
theorem iregAccess_cases (s : State) (l : Level) (file n : Nat) :
    (iregExists s.cfg l file n s.xlen = true ∧ iregAccess s l file n = .ok (.ireg l file n)) ∨
    (iregExists s.cfg l file n s.xlen = false ∧ iregAccess s l file n = .illegal) := by
  unfold iregAccess; split <;> simp_all

/-- All that a reserved select value can answer. -/
theorem reservedOutcome_cases (s : State) (l : Level) :
    (s.cfg.reservedSelectFaults = true ∧ reservedOutcome s l = .illegal) ∨
    (s.cfg.reservedSelectFaults = false ∧ reservedOutcome s l = .refuse (.reservedSelect l)) := by
  unfold reservedOutcome; split <;> simp_all

/-- What `mireg` can reach. -/
theorem miregAccess_ok {s : State} {t : Target} (h : miregAccess s = .ok t) :
    t = .ireg .M 0 s.iselM.val ∧ iregExists s.cfg .M 0 s.iselM.val s.xlen = true ∧
    (s.iselM.within 0x30 0x3F ∨ (s.iselM.within 0x70 0xFF ∧ s.cfg.hasImsic = true)) := by
  unfold miregAccess at h
  rcases reservedOutcome_cases s .M with ⟨_, hr⟩ | ⟨_, hr⟩ <;>
  rcases iregAccess_cases s .M 0 s.iselM.val with ⟨he, hi⟩ | ⟨he, hi⟩ <;>
  simp only [hr, hi] at h <;>
  (cases hc : s.iselM.selClass <;> simp only [hc] at h <;> (try split at h) <;>
    simp_all [selClass_prio_iff, selClass_eint_iff, Isel.within])

/-- What `sireg` can reach with V = 0. -/
theorem siregAccess_ok {s : State} {t : Target} (h : siregAccess s = .ok t) :
    t = .ireg .S 0 s.iselS.val ∧ iregExists s.cfg .S 0 s.iselS.val s.xlen = true ∧
    ((s.iselS.within 0x30 0x3F ∧ (s.mode = .hs → s.ms .b59 = true)) ∨
      (s.iselS.within 0x70 0xFF ∧ s.cfg.hasImsic = true ∧ (s.mode = .hs → s.ms .b58 = true))) := by
  unfold siregAccess at h
  rcases reservedOutcome_cases s .S with ⟨_, hr⟩ | ⟨_, hr⟩ <;>
  rcases iregAccess_cases s .S 0 s.iselS.val with ⟨he, hi⟩ | ⟨he, hi⟩ <;>
  simp only [hr, hi] at h <;>
  (cases hc : s.iselS.selClass <;> simp only [hc] at h <;> (repeat' split at h) <;>
    simp_all [selClass_prio_iff, selClass_eint_iff, Isel.within])

/-- What `vsireg` can reach with V = 0. -/
theorem vsiregDirect_ok {s : State} {t : Target} (h : vsiregDirect s = .ok t) :
    t = .ireg .VS s.vgein s.iselVS.val ∧ iregExists s.cfg .VS s.vgein s.iselVS.val s.xlen = true ∧
    s.iselVS.within 0x70 0xFF ∧ s.vgeinValid = true ∧ (s.mode = .hs → s.ms .b58 = true) := by
  unfold vsiregDirect at h
  rcases reservedOutcome_cases s .VS with ⟨_, hr⟩ | ⟨_, hr⟩ <;>
  rcases iregAccess_cases s .VS s.vgein s.iselVS.val with ⟨he, hi⟩ | ⟨he, hi⟩ <;>
  simp only [hr, hi, State.vsClass] at h <;>
  (cases hc : s.iselVS.selClass <;> cases hv : s.vgeinValid <;> simp only [hc, hv] at h <;> (repeat' split at h) <;>
    simp_all [selClass_eint_iff, Isel.within])

/-- What `sireg` can reach with V = 1. -/
theorem siregVirtual_ok {s : State} {t : Target} (h : siregVirtual s = .ok t) :
    t = .ireg .VS s.vgein s.iselVS.val ∧ iregExists s.cfg .VS s.vgein s.iselVS.val s.xlen = true ∧
    s.iselVS.within 0x70 0xFF ∧ s.vgeinValid = true ∧ s.cfg.hasImsic = true ∧
    s.mode ≠ .vu ∧ s.ms .b60 = true ∧ s.hs .b60 = true ∧ s.ms .b58 = true ∧ s.hs .b58 = true := by
  unfold siregVirtual at h
  rcases reservedOutcome_cases s .VS with ⟨_, hr⟩ | ⟨_, hr⟩ <;>
  rcases iregAccess_cases s .VS s.vgein s.iselVS.val with ⟨he, hi⟩ | ⟨he, hi⟩ <;>
  simp only [hr, hi] at h <;>
  (cases hc : s.iselVS.selClass <;> simp only [hc] at h <;> (repeat' split at h) <;>
    simp_all [selClass_eint_iff, Isel.within])

/-- What `stopei` and `vstopei` can reach with V = 1. -/
theorem topeiVirtual_ok {e : Csr} {s : State} {t : Target} (h : topeiVirtual e s = .ok t) :
    t = .own .vstopei ∧ e ≠ .vstopei ∧ s.mode ≠ .vu ∧ s.cfg.hasImsic = true ∧
    s.ms .b58 = true ∧ s.hs .b58 = true ∧ s.vgeinValid = true := by
  unfold topeiVirtual at h
  repeat' split at h
  all_goals simp_all

/-- A CSR that is not a window reaches its own row. -/
theorem plainTarget_ok_iff (e : Csr) (t : Target) :
    plainTarget e = .ok t ↔
      ((∃ l, e.row.reach = .sel l ∧ t = .sel l) ∨ (∃ r, e.row.reach = .full r ∧ t = .full r) ∨
       (∃ r, e.row.reach = .high r ∧ t = .high r) ∨ (∃ r, e.row.reach = .own r ∧ t = .own r) ∨
       (∃ l, e.row.reach = .top l ∧ t = .top l)) := by
  unfold plainTarget
  split <;> simp_all [eq_comm]

/-! ### The two checks -/

/-- `CheckV0` past the state-enable test, of a CSR that is neither a window nor `vstopei`. -/
theorem checkV0_plain {e : Csr} {s : State} (h : s.mode = .hs → s.msOpt e.row.en = true)
    (hw : ∀ l, e.row.reach ≠ .window l) (hv : e ≠ .vstopei) : checkV0 e s = plainTarget e := by
  unfold checkV0
  rw [if_neg (by simp only [Bool.not_eq_true', not_and, Bool.not_eq_false]; exact h)]
  revert hw hv
  cases e <;> simp [Csr.row, CsrRow.machine, CsrRow.supervisor, CsrRow.hypervisor]

/-- The access check of a CSR that exists, at its own level or above, with V = 0. -/
theorem csrCheck_of_reachableV0 {e : Csr} {s : State} {wr : Bool} (h : reachableV0 e s)
    (hw : wr = true → e.row.code.readOnly = false) : csrCheck e wr s = checkV0 e s := by
  obtain ⟨hx, hm⟩ := h
  have hro : ¬ (wr = true ∧ e.row.code.readOnly = true) := by
    rintro ⟨h1, h2⟩; rw [hw h1] at h2; cases h2
  rcases hm with hm | ⟨hm, hl, _⟩
  · simp_all [csrCheck, Mode.virt]
  · simp_all [csrCheck, Mode.virt]

theorem enabled_of_reachableV0 {e : Csr} {s : State} (h : reachableV0 e s) :
    s.mode = .hs → s.msOpt e.row.en = true := by
  rcases h.2 with hm | ⟨_, _, he⟩
  · simp [hm]
  · exact fun _ => he

/-- In the modes with V = 0 no part of the access check answers a virtual instruction exception. -/
theorem checkV0_ne_virtual (e : Csr) (s : State) : checkV0 e s ≠ .trap .virtualInstruction := by
  have h1 : ∀ l, reservedOutcome s l ≠ .trap .virtualInstruction := by
    intro l; rcases reservedOutcome_cases s l with ⟨_, h⟩ | ⟨_, h⟩ <;> simp [h]
  have h2 : ∀ l f n, iregAccess s l f n ≠ .trap .virtualInstruction := by
    intro l f n; rcases iregAccess_cases s l f n with ⟨_, h⟩ | ⟨_, h⟩ <;> simp [h]
  have h3 : miregAccess s ≠ .trap .virtualInstruction := by
    unfold miregAccess; repeat' split
    all_goals simp [h1, h2]
  have h4 : siregAccess s ≠ .trap .virtualInstruction := by
    unfold siregAccess; repeat' split
    all_goals simp [h1, h2]
  have h5 : vsiregDirect s ≠ .trap .virtualInstruction := by
    unfold vsiregDirect; repeat' split
    all_goals simp [h1, h2]
  have h6 : plainTarget e ≠ .trap .virtualInstruction := by unfold plainTarget; split <;> simp
  unfold checkV0; repeat' split
  all_goals first | assumption | simp

/-- What `CheckV1` can reach: from VS-mode only, a supervisor CSR's twin or a guest interrupt file. -/
theorem checkV1_ok {e : Csr} {s : State} {t : Target} (h : checkV1 e s = .ok t) :
    s.mode ≠ .vu ∧ ((e = .sireg ∧ siregVirtual s = .ok t) ∨
      (e.row.level ≠ .H ∧ s.msOpt e.row.en = true ∧ s.hsOpt e.row.en = true ∧
        ∃ e', e.twin = some e' ∧ plainTarget e' = .ok t)) := by
  unfold checkV1 at h
  split at h
  · split at h <;> simp at h
  · split at h
    · exact ⟨(siregVirtual_ok h).2.2.2.2.2.1, .inl ⟨by assumption, h⟩⟩
    · repeat' split at h
      all_goals simp_all

end Sys2Proof.Machine
end

