-- ==== Sys2Proof/Laws/Bits.lean ====
section
/-! SUPPORT. The width operations `fit` and `widen`, and reads and writes of general registers. -/

namespace Sys2Proof.Machine

@[simp] theorem fit_w64 (v : Word) : fit .w64 v = v := rfl

@[simp] theorem fit_fit (x : Xlen) (v : Word) : fit x (fit x v) = fit x v := by
  cases x
  · simp only [fit]; apply BitVec.eq_of_toNat_eq; simp
  · rfl

/-- Widening a value keeps the bits an instruction of that width sees. -/
@[simp] theorem fit_widen (x : Xlen) (v : Word) : fit x (widen x v) = fit x v := by
  cases x
  · simp only [fit, widen]
    congr 1
    ext i hi
    simp [BitVec.getElem_signExtend, hi, show i < 64 by omega]
  · rfl

theorem fit_toNat (x : Xlen) (v : Word) : (fit x v).toNat = v.toNat % 2 ^ x.bits := by
  cases x
  · simp only [fit, Xlen.bits]; simp; omega
  · simp only [fit, Xlen.bits]; exact (Nat.mod_eq_of_lt v.isLt).symm

/-- `x0` reads zero. -/
@[simp] theorem readReg_zero (s : State) : s.readReg 0 = 0 := by simp [State.readReg]

/-- A write to `x0` is discarded. -/
@[simp] theorem writeReg_zero (s : State) (v : Word) : s.writeReg 0 v = s := by simp [State.writeReg]

/-- A written register other than `x0` keeps the value sign-extended. -/
theorem writeReg_get_self (s : State) {r : Reg} (hr : r ≠ 0) (v : Word) : (s.writeReg r v).x[r] = widen s.xlen v := by
  simp [State.writeReg, hr]

/-- Writing one register leaves every other as it was. -/
theorem writeReg_get_of_ne (s : State) {r q : Reg} (h : q ≠ r) (v : Word) : (s.writeReg r v).x[q] = s.x[q] := by
  unfold State.writeReg
  split
  · rfl
  · have hv : (r : Nat) ≠ (q : Nat) := fun e => h (Fin.ext e.symm)
    simp [hv]

end Sys2Proof.Machine
end

