-- ==== Sys2Proof/Laws/Encoding.lean ====
section
/-! SUPPORT. The fields of an encoded word, and the bytes of a word. -/

namespace Sys2Proof

/-- Which field a bit of an encoded word comes from. -/
theorem encodeFields_bit (c : CsrNum) (m : BitVec 5) (f : BitVec 3) (rd : Reg) {i : Nat} (hi : i < 32) :
    (encodeFields c m f rd).getLsbD i =
      if i < 7 then opcodeSystem.getLsbD i
      else if i < 12 then (regField rd).getLsbD (i - 7)
      else if i < 15 then f.getLsbD (i - 12)
      else if i < 20 then m.getLsbD (i - 15)
      else c.getLsbD (i - 20) := by
  simp only [encodeFields, BitVec.getLsbD_or, BitVec.getLsbD_shiftLeft, BitVec.getLsbD_setWidth]
  split
  · simp [show i < 20 by omega, show i < 15 by omega, show i < 12 by omega, *]
  · have h7 : opcodeSystem.getLsbD i = false := BitVec.getLsbD_of_ge _ _ (by omega)
    split
    · simp [show i < 20 by omega, show i < 15 by omega, show i - 7 < 32 by omega, *]
    · have h12 : (regField rd).getLsbD (i - 7) = false := BitVec.getLsbD_of_ge _ _ (by omega)
      split
      · simp [show i < 20 by omega, show i - 12 < 32 by omega, *]
      · have h15 : f.getLsbD (i - 12) = false := BitVec.getLsbD_of_ge _ _ (by omega)
        split
        · simp [show i - 15 < 32 by omega, *]
        · have h20 : m.getLsbD (i - 15) = false := BitVec.getLsbD_of_ge _ _ (by omega)
          simp [show i - 20 < 32 by omega, *]

@[simp] theorem encodeFields_opcode (c : CsrNum) (m : BitVec 5) (f : BitVec 3) (rd : Reg) :
    (encodeFields c m f rd).extractLsb' 0 7 = opcodeSystem := by
  ext i hi
  rw [BitVec.getElem_extractLsb', encodeFields_bit _ _ _ _ (by omega), if_pos (by omega)]
  simp [hi]

@[simp] theorem encodeFields_funct3 (c : CsrNum) (m : BitVec 5) (f : BitVec 3) (rd : Reg) :
    fieldFunct3 (encodeFields c m f rd) = f := by
  ext i hi
  rw [fieldFunct3, BitVec.getElem_extractLsb', encodeFields_bit _ _ _ _ (by omega), if_neg (by omega),
    if_neg (by omega), if_pos (by omega)]
  simp [hi]

@[simp] theorem encodeFields_uimm (c : CsrNum) (m : BitVec 5) (f : BitVec 3) (rd : Reg) :
    fieldUimm (encodeFields c m f rd) = m := by
  ext i hi
  rw [fieldUimm, BitVec.getElem_extractLsb', encodeFields_bit _ _ _ _ (by omega), if_neg (by omega),
    if_neg (by omega), if_neg (by omega), if_pos (by omega)]
  simp [hi]

@[simp] theorem encodeFields_csr (c : CsrNum) (m : BitVec 5) (f : BitVec 3) (rd : Reg) :
    fieldCsr (encodeFields c m f rd) = c := by
  ext i hi
  rw [fieldCsr, BitVec.getElem_extractLsb', encodeFields_bit _ _ _ _ (by omega), if_neg (by omega),
    if_neg (by omega), if_neg (by omega), if_neg (by omega)]
  simp [hi]

@[simp] theorem encodeFields_rd (c : CsrNum) (m : BitVec 5) (f : BitVec 3) (rd : Reg) :
    fieldRd (encodeFields c m f rd) = rd := by
  have h : (encodeFields c m f rd).extractLsb' 7 5 = regField rd := by
    ext i hi
    rw [BitVec.getElem_extractLsb', encodeFields_bit _ _ _ _ (by omega), if_neg (by omega), if_pos (by omega)]
    simp [hi]
  simp only [fieldRd, h, regField]

/-- The register reading of bits 19:15 is the number the immediate reading holds. -/
theorem fieldRs1_eq (w : BitVec 32) : fieldRs1 w = (fieldUimm w).toFin := rfl

/-- The register field of the number read from bits 19:15 is those bits. -/
@[simp] theorem regField_fieldRs1 (w : BitVec 32) : regField (fieldRs1 w) = fieldUimm w := rfl

@[simp] theorem encodeFields_rs1 (c : CsrNum) (r : Reg) (f : BitVec 3) (rd : Reg) :
    fieldRs1 (encodeFields c (regField r) f rd) = r := by
  rw [fieldRs1_eq, encodeFields_uimm]; rfl

/-- A word put back together from its fields. -/
theorem encodeFields_fields (w : BitVec 32) (h : w.extractLsb' 0 7 = opcodeSystem) :
    encodeFields (fieldCsr w) (fieldUimm w) (fieldFunct3 w) (fieldRd w) = w := by
  apply BitVec.eq_of_getLsbD_eq
  intro i hi
  rw [encodeFields_bit _ _ _ _ hi, ← h]
  simp only [regField, fieldRd, fieldCsr, fieldUimm, fieldFunct3, BitVec.ofFin_toFin, BitVec.getLsbD_extractLsb']
  split
  · simp [*]
  · split
    · simp [show i - 7 < 5 by omega, show 7 + (i - 7) = i by omega]
    · split
      · simp [show i - 12 < 3 by omega, show 12 + (i - 12) = i by omega]
      · split
        · simp [show i - 15 < 5 by omega, show 15 + (i - 15) = i by omega]
        · simp [show i - 20 < 12 by omega, show 20 + (i - 20) = i by omega]

/-- A word put back together from its bytes. -/
@[simp] theorem wordOfBytes_bytes (w : BitVec 32) :
    wordOfBytes (w.extractLsb' 0 8) (w.extractLsb' 8 8) (w.extractLsb' 16 8) (w.extractLsb' 24 8) = w := by
  apply BitVec.eq_of_getLsbD_eq
  intro i hi
  simp only [wordOfBytes, BitVec.getLsbD_or, BitVec.getLsbD_shiftLeft, BitVec.getLsbD_setWidth,
    BitVec.getLsbD_extractLsb']
  rcases Nat.lt_or_ge i 8 with h | h
  · simp [hi, h, show i < 16 by omega, show i < 24 by omega]
  · rcases Nat.lt_or_ge i 16 with h' | h'
    · simp [hi, h', show ¬ i < 8 by omega, show i < 24 by omega, show i - 8 < 8 by omega, show i - 8 < 32 by omega,
        show 8 + (i - 8) = i by omega]
    · rcases Nat.lt_or_ge i 24 with h'' | h''
      · simp [hi, h'', show ¬ i < 8 by omega, show ¬ i < 16 by omega, show ¬ i - 8 < 8 by omega,
          show i - 16 < 8 by omega, show i - 16 < 32 by omega, show 16 + (i - 16) = i by omega]
      · simp [hi, show ¬ i < 8 by omega, show ¬ i < 16 by omega, show ¬ i < 24 by omega, show ¬ i - 8 < 8 by omega,
          show ¬ i - 16 < 8 by omega, show i - 24 < 8 by omega, show i - 24 < 32 by omega,
          show 24 + (i - 24) = i by omega]

/-- Decoding the four bytes of a word decodes the word. -/
theorem decode_bytesOfWord (w : BitVec 32) (rest : List Byte) :
    decode (bytesOfWord w ++ rest) =
      match decodeWord w with
      | .ok i => .ok (i, rest)
      | .error e => .error e := by
  cases h : decodeWord w <;> simp [decode, bytesOfWord, wordOfBytes_bytes, h]

end Sys2Proof
end

