-- ==== Sys2Proof/Laws/Exec.lean ====
section
/-! SUPPORT. What an instruction can do, said once: all six are `csrInstr`, and it completes, traps or is refused exactly
as the access check answers. -/

namespace Sys2Proof.Machine

/-- The six meanings are one operation at the instruction's own operands. -/
theorem exec_eq_csrInstr (i : Instr) (s : State) :
    exec i s = csrInstr i.csr i.rd (use i) (combineOf i) (operandOf i s) s := by
  cases i <;> rfl

/-- The state in which an allowed instruction completes. -/
def resultState (i : Instr) (t : Target) (s : State) : State :=
  (if (use i).writes then csrWrite t s (combineOf i (if (use i).reads then csrRead t s else 0) (operandOf i s)) else s)
    |>.complete i.rd (if (use i).reads then csrRead t s else 0)

theorem exec_of_ok {i : Instr} {s : State} {t : Target} (h : accessCheck i.csr (use i).writes s = .ok t) :
    exec i s = .next (resultState i t s) := by
  simp only [exec_eq_csrInstr, csrInstr, h, resultState]

theorem exec_of_trap {i : Instr} {s : State} {f : Fault} (h : accessCheck i.csr (use i).writes s = .trap f) :
    exec i s = .fault f := by
  simp only [exec_eq_csrInstr, csrInstr, h, takeException]

theorem exec_of_refuse {i : Instr} {s : State} {r : Refusal} (h : accessCheck i.csr (use i).writes s = .refuse r) :
    exec i s = .refused r := by
  simp only [exec_eq_csrInstr, csrInstr, h]

/-- All that a completing instruction can have done. -/
theorem exec_next_cases {i : Instr} {s s' : State} (h : exec i s = .next s') :
    ∃ t, accessCheck i.csr (use i).writes s = .ok t ∧ s' = resultState i t s := by
  cases hc : accessCheck i.csr (use i).writes s with
  | ok t => rw [exec_of_ok hc] at h; exact ⟨t, rfl, (Host.Outcome.next.inj h).symm⟩
  | trap f => rw [exec_of_trap hc] at h; cases h
  | refuse r => rw [exec_of_refuse hc] at h; cases h

/-- The old value reaches `x[rd]` only if it was read; a form that does not read has `rd = x0`. -/
theorem use_reads_of_rd {i : Instr} (h : i.rd ≠ 0) : (use i).reads = true := by
  cases i <;> simp_all [use, Use.swap, Use.maskReg, Use.maskImm, Instr.rd]

section result
variable (i : Instr) (t : Target) (s : State)

@[simp] theorem resultState_cfg : (resultState i t s).cfg = s.cfg := by unfold resultState; split <;> simp
@[simp] theorem resultState_mode : (resultState i t s).mode = s.mode := by unfold resultState; split <;> simp
@[simp] theorem resultState_mem : (resultState i t s).mem = s.mem := by unfold resultState; split <;> simp
@[simp] theorem resultState_pc : (resultState i t s).pc = fit s.xlen (s.pc + 4) := by
  unfold resultState; split <;> simp
@[simp] theorem resultState_xlen : (resultState i t s).xlen = s.xlen := by unfold resultState; split <;> simp

/-- The CSR state after a completing instruction is that of the CSR write alone. -/
theorem resultState_isel (l : Level) :
    (resultState i t s).isel l =
      (if (use i).writes then csrWrite t s (combineOf i (if (use i).reads then csrRead t s else 0) (operandOf i s))
       else s).isel l := by
  simp [resultState]

theorem resultState_intr :
    (resultState i t s).intr =
      (if (use i).writes then csrWrite t s (combineOf i (if (use i).reads then csrRead t s else 0) (operandOf i s))
       else s).intr := by
  simp [resultState]

/-- VGEIN and the state-enable bits stay where no write happens or the open functions do not come in. -/
theorem resultState_vgein (h : (use i).writes = false ∨ t.settled s) : (resultState i t s).vgein = s.vgein := by
  unfold resultState; split
  · rcases h with h | h
    · simp_all
    · rw [complete_vgein, csrWrite_vgein s _ h]
  · simp

theorem resultState_mstateen0 (h : (use i).writes = false ∨ t.settled s) :
    (resultState i t s).mstateen0 = s.mstateen0 := by
  unfold resultState; split
  · rcases h with h | h
    · simp_all
    · rw [complete_mstateen0, csrWrite_mstateen0 s _ h]
  · simp

theorem resultState_hstateen0 (h : (use i).writes = false ∨ t.settled s) :
    (resultState i t s).hstateen0 = s.hstateen0 := by
  unfold resultState; split
  · rcases h with h | h
    · simp_all
    · rw [complete_hstateen0, csrWrite_hstateen0 s _ h]
  · simp

/-- The registers after a completing instruction are those before it, `x[rd]` written. -/
theorem resultState_x : (resultState i t s).x = (s.writeReg i.rd (if (use i).reads then csrRead t s else 0)).x := by
  unfold resultState
  split
  · simp only [complete_x, State.writeReg, csrWrite_xlen]; split <;> simp
  · simp only [complete_x]

end result

end Sys2Proof.Machine
end

