-- ==== Sys2Proof/Laws/Memory.lean ====
section
/-! SUPPORT. The program text: reads after writes, and the canonical form is kept. -/

namespace Sys2Proof.Machine

theorem Memory.read_write_self (m : Memory) (a : Nat) (v : Byte) : (m.write a v).read a = some v := by
  induction m with
  | nil => simp [Memory.write, Memory.read]
  | cons c m ih =>
    obtain ⟨k, b⟩ := c
    simp only [Memory.write]
    split
    · simp [Memory.read]
    · split
      · next h => simp [Memory.read, h]
      · next h => simp [Memory.read, h, ih]

theorem Memory.read_write_of_ne (m : Memory) {a q : Nat} (h : q ≠ a) (v : Byte) : (m.write a v).read q = m.read q := by
  induction m with
  | nil => simp [Memory.write, Memory.read, Ne.symm h]
  | cons c m ih =>
    obtain ⟨k, b⟩ := c
    simp only [Memory.write]
    split
    · simp [Memory.read, Ne.symm h]
    · split
      · next hk => subst hk; simp [Memory.read, Ne.symm h]
      · simp [Memory.read, ih]

theorem Memory.wf_cons {a : Nat} {v : Byte} {m : Memory} (h : Memory.wf ((a, v) :: m) = true) : m.wf = true := by
  cases m with
  | nil => rfl
  | cons c m => simp only [Memory.wf, Bool.and_eq_true] at h; exact h.2

theorem Memory.wf_lt {a : Nat} {v : Byte} {m : Memory} (h : Memory.wf ((a, v) :: m) = true) : a < 2 ^ 64 := by
  induction m generalizing a v with
  | nil => simpa [Memory.wf] using h
  | cons c m ih =>
    obtain ⟨b, w⟩ := c
    simp only [Memory.wf, Bool.and_eq_true, decide_eq_true_eq] at h
    have := ih h.2
    omega

/-- The least address of a canonical list decides whether an entry may stand before it. -/
theorem Memory.wf_cons_iff (a : Nat) (v : Byte) (m : Memory) :
    Memory.wf ((a, v) :: m) = true ↔ a < 2 ^ 64 ∧ m.wf = true ∧ ∀ c ∈ m.head?, a < c.1 := by
  constructor
  · intro h
    refine ⟨Memory.wf_lt h, Memory.wf_cons h, ?_⟩
    cases m with
    | nil => simp
    | cons c m => simp only [Memory.wf, Bool.and_eq_true, decide_eq_true_eq] at h; simpa using h.1
  · rintro ⟨h1, h2, h3⟩
    cases m with
    | nil => simpa [Memory.wf] using h1
    | cons c m => simp only [Memory.wf, Bool.and_eq_true, decide_eq_true_eq]; exact ⟨by simpa using h3, h2⟩

theorem Memory.head_write (m : Memory) (a : Nat) (v : Byte) (lo : Nat) (hlo : lo < a) (h : ∀ c ∈ m.head?, lo < c.1) :
    ∀ c ∈ (m.write a v).head?, lo < c.1 := by
  cases m with
  | nil => simpa [Memory.write] using hlo
  | cons c m =>
    obtain ⟨k, b⟩ := c
    simp only [Memory.write]
    split
    · simpa using hlo
    · split
      · simpa using h
      · simpa using h

/-- A write keeps the canonical form. -/
theorem Memory.wf_write (m : Memory) {a : Nat} (ha : a < 2 ^ 64) (v : Byte) (h : m.wf = true) :
    (m.write a v).wf = true := by
  induction m with
  | nil => simpa [Memory.write, Memory.wf] using ha
  | cons c m ih =>
    obtain ⟨k, b⟩ := c
    obtain ⟨h1, h2, h3⟩ := (Memory.wf_cons_iff k b m).1 h
    simp only [Memory.write]
    split
    · next hk => exact (Memory.wf_cons_iff _ _ _).2 ⟨ha, h, by simpa using hk⟩
    · split
      · exact (Memory.wf_cons_iff _ _ _).2 ⟨by omega, h2, by next hk => subst hk; exact h3⟩
      · exact (Memory.wf_cons_iff _ _ _).2 ⟨h1, ih h2, Memory.head_write m a v k (by omega) h3⟩

/-- Writing bytes below 2^64 keeps the canonical form. -/
theorem Memory.wf_writeBytes (m : Memory) (a : Nat) (bs : List Byte) (ha : a + bs.length ≤ 2 ^ 64) (h : m.wf = true) :
    (m.writeBytes a bs).wf = true := by
  induction bs generalizing m a with
  | nil => exact h
  | cons b bs ih =>
    simp only [List.length_cons] at ha
    exact ih (m.write a b) (a + 1) (by omega) (Memory.wf_write m (by omega) b h)

theorem Memory.read_writeBytes_of_not_mem (m : Memory) (a : Nat) (bs : List Byte) {q : Nat}
    (h : q < a ∨ a + bs.length ≤ q) : (m.writeBytes a bs).read q = m.read q := by
  induction bs generalizing m a with
  | nil => rfl
  | cons b bs ih =>
    simp only [List.length_cons] at h
    rw [Memory.writeBytes, ih _ _ (by omega), Memory.read_write_of_ne _ (by omega)]

/-- Bytes read back as written. -/
theorem Memory.readBytes_writeBytes (m : Memory) (a : Nat) (bs : List Byte) :
    (m.writeBytes a bs).readBytes a bs.length = some bs := by
  induction bs generalizing m a with
  | nil => rfl
  | cons b bs ih =>
    simp only [List.length_cons, Memory.readBytes, Memory.writeBytes]
    rw [Memory.read_writeBytes_of_not_mem _ _ _ (by omega), Memory.read_write_self, ih]

end Sys2Proof.Machine
end

