-- ==== Sys2Proof/Laws/PerInstr.lean ====
section
/-! SUPPORT. Statements about every instruction as syntax, one lemma per constructor. -/

namespace Sys2Proof.Laws.EncodeMatches

open Sys2Proof

/-- The match value of an instruction's row of the opcode table (30_encoding.md R123). -/
def matchWord : Instr → BitVec 32
  | .csrrw _ _ _ => 0x00001073#32
  | .csrrs _ _ _ => 0x00002073#32
  | .csrrc _ _ _ => 0x00003073#32
  | .csrrwi _ _ _ => 0x00005073#32
  | .csrrsi _ _ _ => 0x00006073#32
  | .csrrci _ _ _ => 0x00007073#32

/-- The encoded word has the fixed bits of its row: its masked value is the row's match value (R123). -/
def Statement (i : Instr) : Prop := encodeWord i &&& 0x0000707F#32 = matchWord i

/-- The bits an encoded word has under the mask `0x0000707F` are its opcode and its `funct3`. -/
theorem masked_encodeFields (c : CsrNum) (m : BitVec 5) (f : BitVec 3) (rd : Reg) :
    encodeFields c m f rd &&& 0x0000707F#32 = (f.setWidth 32 <<< 12) ||| opcodeSystem.setWidth 32 := by
  apply BitVec.eq_of_getLsbD_eq
  intro i hi
  rw [BitVec.getLsbD_and, encodeFields_bit _ _ _ _ hi]
  revert f
  interval_cases i <;> simp [opcodeSystem]

theorem csrrw (rd : Reg) (c : CsrNum) (rs1 : Reg) : Statement (.csrrw rd c rs1) := by
  simp only [Statement, encodeWord, masked_encodeFields, matchWord]; decide
theorem csrrs (rd : Reg) (c : CsrNum) (rs1 : Reg) : Statement (.csrrs rd c rs1) := by
  simp only [Statement, encodeWord, masked_encodeFields, matchWord]; decide
theorem csrrc (rd : Reg) (c : CsrNum) (rs1 : Reg) : Statement (.csrrc rd c rs1) := by
  simp only [Statement, encodeWord, masked_encodeFields, matchWord]; decide
theorem csrrwi (rd : Reg) (c : CsrNum) (uimm : BitVec 5) : Statement (.csrrwi rd c uimm) := by
  simp only [Statement, encodeWord, masked_encodeFields, matchWord]; decide
theorem csrrsi (rd : Reg) (c : CsrNum) (uimm : BitVec 5) : Statement (.csrrsi rd c uimm) := by
  simp only [Statement, encodeWord, masked_encodeFields, matchWord]; decide
theorem csrrci (rd : Reg) (c : CsrNum) (uimm : BitVec 5) : Statement (.csrrci rd c uimm) := by
  simp only [Statement, encodeWord, masked_encodeFields, matchWord]; decide

end Sys2Proof.Laws.EncodeMatches
end

