-- ==== Sys2Proof/Laws/RegMap.lean ====
section
/-! SUPPORT. Sparse register maps and the plain storage of the interrupt registers: reads after writes, and the canonical
form is kept. -/

namespace Sys2Proof.Machine

theorem RegMap.get_of_wfFrom (m : RegMap) {lo k : Nat} (h : RegMap.wfFrom m lo = true) (hk : k < lo) :
    RegMap.get m k = 0#64 := by
  induction m generalizing lo with
  | nil => rfl
  | cons c m ih =>
    obtain ⟨a, v⟩ := c
    simp only [RegMap.wfFrom, Bool.and_eq_true, decide_eq_true_eq] at h
    simp only [RegMap.get, show a ≠ k by omega, if_false]
    exact ih h.2 (by omega)

theorem RegMap.wfFrom_mono (m : RegMap) {lo lo' : Nat} (h : RegMap.wfFrom m lo = true) (hl : lo' ≤ lo) :
    RegMap.wfFrom m lo' = true := by
  cases m with
  | nil => rfl
  | cons c m =>
    obtain ⟨a, v⟩ := c
    simp only [RegMap.wfFrom, Bool.and_eq_true, decide_eq_true_eq] at h ⊢
    exact ⟨⟨by omega, h.1.2⟩, h.2⟩

theorem RegMap.wfFrom_set (m : RegMap) {lo k : Nat} (v : Word) (h : RegMap.wfFrom m lo = true) (hk : lo ≤ k) :
    RegMap.wfFrom (RegMap.set m k v) lo = true := by
  induction m generalizing lo with
  | nil => by_cases hv : v = 0#64 <;> simp [RegMap.set, RegMap.wfFrom, hv, hk]
  | cons c m ih =>
    obtain ⟨a, w⟩ := c
    have h0 := h
    simp only [RegMap.wfFrom, Bool.and_eq_true, decide_eq_true_eq] at h
    simp only [RegMap.set]
    split
    · next hka =>
      split
      · exact h0
      · next hv =>
          simp only [RegMap.wfFrom, Bool.and_eq_true, decide_eq_true_eq]
          exact ⟨⟨hk, by simpa using hv⟩, ⟨by omega, h.1.2⟩, h.2⟩
    · split
      · next he =>
        split
        · exact RegMap.wfFrom_mono m h.2 (by omega)
        · next hv =>
          simp only [RegMap.wfFrom, Bool.and_eq_true, decide_eq_true_eq]
          exact ⟨⟨h.1.1, by simpa using hv⟩, h.2⟩
      · simp only [RegMap.wfFrom, Bool.and_eq_true, decide_eq_true_eq]
        exact ⟨h.1, ih h.2 (by omega)⟩

/-- Setting a register keeps the canonical form. -/
theorem RegMap.wf_set (m : RegMap) (k : Nat) (v : Word) (h : RegMap.wf m = true) : RegMap.wf (RegMap.set m k v) = true :=
  RegMap.wfFrom_set m v h (Nat.zero_le k)

theorem RegMap.get_set_self (m : RegMap) {lo : Nat} (k : Nat) (v : Word) (h : RegMap.wfFrom m lo = true) :
    RegMap.get (RegMap.set m k v) k = v := by
  induction m generalizing lo with
  | nil => by_cases hv : v = 0#64 <;> simp [RegMap.set, RegMap.get, hv]
  | cons c m ih =>
    obtain ⟨a, w⟩ := c
    have h0 := h
    simp only [RegMap.wfFrom, Bool.and_eq_true, decide_eq_true_eq] at h
    simp only [RegMap.set]
    split
    · next hka =>
      split
      · next hv =>
        rw [hv, RegMap.get, if_neg (by omega)]
        exact RegMap.get_of_wfFrom m h.2 (by omega)
      · simp [RegMap.get]
    · split
      · next he =>
        split
        · next hv => rw [hv]; exact RegMap.get_of_wfFrom m h.2 (by omega)
        · simp [RegMap.get, he]
      · next he => simp only [RegMap.get, he, if_false]; exact ih h.2

theorem RegMap.get_set_of_ne (m : RegMap) {k q : Nat} (hq : q ≠ k) (v : Word) :
    RegMap.get (RegMap.set m k v) q = RegMap.get m q := by
  induction m with
  | nil => by_cases hv : v = 0#64 <;> simp [RegMap.set, RegMap.get, hv, Ne.symm hq]
  | cons c m ih =>
    obtain ⟨a, w⟩ := c
    simp only [RegMap.set]
    split
    · split
      · rfl
      · simp [RegMap.get, Ne.symm hq]
    · split
      · next he =>
        subst he
        split <;> simp [RegMap.get, Ne.symm hq]
      · simp only [RegMap.get, ih]

theorem Reg64.idx_injective {r q : Reg64} (h : r.idx = q.idx) : r = q := by
  revert h; cases r <;> cases q <;> decide

@[simp] theorem get64_set64_self (i : Intr) (r : Reg64) (v : Word) : (i.set64 r v).get64 r = v := by
  simp [Intr.get64, Intr.set64]

theorem get64_set64_of_ne (i : Intr) {r q : Reg64} (h : q ≠ r) (v : Word) : (i.set64 r v).get64 q = i.get64 q := by
  have hn : (r.idx : Nat) ≠ (q.idx : Nat) := fun e => h (Reg64.idx_injective (Fin.ext e.symm))
  simp [Intr.get64, Intr.set64, hn]

end Sys2Proof.Machine
end

