-- ==== Sys2Proof/Laws/Step.lean ====
section
/-! SUPPORT. What a step can do, said once: it completes only as some instruction completes. -/

namespace Sys2Proof.Machine

/-- A fetch that succeeds read four bytes at an aligned address. -/
theorem fetch_ok {s : State} {bs : List Byte} (h : fetch s = .ok bs) :
    s.fetchAddr % 4 = 0 ∧ s.mem.readBytes s.fetchAddr 4 = some bs := by
  unfold fetch at h
  split at h
  · cases h
  · next ha =>
    split at h
    · cases h
    · next hb => cases h; exact ⟨by omega, hb⟩

/-- All that a completing step can have done. -/
theorem step_next_cases {s t : State} (h : step s = .next t) :
    ∃ (i : Instr) (tgt : Target), accessCheck i.csr (use i).writes s = .ok tgt ∧ t = resultState i tgt s := by
  unfold step at h
  split at h
  · cases h
  · split at h
    · cases h
    · next i _ _ =>
      obtain ⟨tgt, hc, ht⟩ := exec_next_cases h
      exact ⟨i, tgt, hc, ht⟩

end Sys2Proof.Machine
end

