-- ==== Sys2Proof/Laws/Values.lean ====
section
/-! SUPPORT. The values that reads give and writes store, as numbers, and which indirect registers an access can reach. -/

namespace Sys2Proof.Machine

/-! ### General registers -/

theorem fit_eq_ofNat (x : Xlen) (v : Word) : fit x v = BitVec.ofNat 64 (v.toNat % 2 ^ x.bits) := by
  apply BitVec.eq_of_toNat_eq
  have := v.isLt
  rw [fit_toNat, BitVec.toNat_ofNat]
  cases x <;> simp [Xlen.bits] <;> omega

/-- A register is seen as XLEN bits. -/
theorem readReg_lt (s : State) (r : Reg) : (s.readReg r).toNat < 2 ^ s.xlen.bits := by
  unfold State.readReg
  split
  · simp
  · rw [fit_toNat]; exact Nat.mod_lt _ (Nat.two_pow_pos _)

theorem complete_readReg_self (s : State) {r : Reg} (v : Word) (h : r ≠ 0) :
    (s.complete r v).readReg r = fit s.xlen v := by
  simp only [State.readReg, h, if_false, complete_xlen, complete_x, writeReg_get_self s h, fit_widen]

theorem complete_readReg_of_ne (s : State) {r q : Reg} (v : Word) (h : q ≠ r) :
    (s.complete r v).readReg q = s.readReg q := by
  simp only [State.readReg, complete_xlen, complete_x, writeReg_get_of_ne s h]

@[simp] theorem csrWrite_readReg (t : Target) (s : State) (v : Word) (r : Reg) :
    (csrWrite t s v).readReg r = s.readReg r := by
  simp [State.readReg]

/-! ### Configurations -/

theorem hasS_of_hasH {c : Cfg} (h : c.wf = true) (hh : c.hasH = true) : c.hasS = true := by
  simp [Cfg.wf] at h; simp_all

/-- A legal configuration implements between 6 and 31 bits of a select register, 8 with an IMSIC, 9 for `vsiselect`. -/
theorem iselBits_bounds {c : Cfg} (h : c.wf = true) (l : Level) :
    6 ≤ c.iselBits l ∧ c.iselBits l ≤ 31 ∧ (c.hasImsic = true → 8 ≤ c.iselBits l) ∧ (l = .VS → 9 ≤ c.iselBits l) := by
  simp only [Cfg.wf, Bool.and_eq_true, decide_eq_true_eq, Cfg.iselMin] at h
  cases l <;> simp only [Cfg.iselBits, reduceCtorEq, false_imp_iff, and_true, true_imp_iff] <;>
    (split at h <;> simp_all <;> omega)

/-! ### Select registers -/

theorem legalise_val {bits : Nat} (ok : Bool) (x : Xlen) (w : Word) (hb : bits ≤ 31) :
    (Isel.legalise bits ok x w).val = w.toNat % 2 ^ bits := by
  apply Nat.mod_mod_of_dvd
  apply Nat.pow_dvd_pow
  cases x <;> simp [Xlen.bits] <;> omega

theorem view_toNat (i : Isel) (x : Xlen) (h : i.val < 2 ^ 31) :
    (i.view x).toNat = (if i.custom then 2 ^ (x.bits - 1) else 0) + i.val := by
  rw [Isel.view, fit_toNat, BitVec.toNat_ofNat]
  cases x <;> cases i.custom <;> simp [Xlen.bits] <;> omega

/-! ### Halves and widths -/

/-- A write by the plain name with XLEN = 32 keeps the upper half. -/
theorem mergeLow_eq_ofNat {x : Xlen} {v : Word} (old : Word) (h : v.toNat < 2 ^ x.bits) :
    mergeLow x old v = if x = .w64 then v else BitVec.ofNat 64 (old.toNat / 2 ^ 32 * 2 ^ 32 + v.toNat) := by
  cases x
  · apply BitVec.eq_of_toNat_eq
    simp only [Xlen.bits] at h
    simp only [mergeLow, reduceCtorEq, if_false, BitVec.toNat_append, BitVec.extractLsb'_toNat, BitVec.toNat_ofNat]
    rw [← Nat.shiftLeft_add_eq_or_of_lt (by omega)]
    have := old.isLt
    simp [Nat.shiftLeft_eq, Nat.shiftRight_eq_div_pow]
    omega
  · rfl

/-- A write of a high half keeps the lower half. -/
theorem mergeHigh_eq_ofNat {v : Word} (old : Word) (h : v.toNat < 2 ^ 32) :
    mergeHigh old v = BitVec.ofNat 64 (v.toNat * 2 ^ 32 + old.toNat % 2 ^ 32) := by
  apply BitVec.eq_of_toNat_eq
  simp only [mergeHigh, BitVec.toNat_append, BitVec.extractLsb'_toNat, BitVec.toNat_ofNat]
  rw [← Nat.shiftLeft_add_eq_or_of_lt (by omega)]
  have := old.isLt
  simp [Nat.shiftLeft_eq, Nat.shiftRight_eq_div_pow]
  omega

theorem upperHalf_eq_ofNat (v : Word) : (v.extractLsb' 32 32).setWidth 64 = BitVec.ofNat 64 (v.toNat / 2 ^ 32) := by
  apply BitVec.eq_of_toNat_eq
  have := v.isLt
  simp [Nat.shiftRight_eq_div_pow]
  omega

/-- A register with a width of its own reads below it. -/
theorem rdW_lt (r : RegW) (s : State) : (rdW r s).toNat < 2 ^ (RegW.xlen s.cfg r).bits := by
  unfold rdW
  split <;> (rw [fit_toNat]; exact Nat.mod_lt _ (Nat.two_pow_pos _))

/-! ### Indirect registers -/

theorem vsKey_injective {f n f' n' : Nat} (h : n < 256) (h' : n' < 256) (e : vsKey f n = vsKey f' n') :
    f = f' ∧ n = n' := by
  unfold vsKey at e; omega

/-- Under `PlainStorage`, in a legal state, an indirect register reads what was written to it. -/
theorem getIreg_iregWr {s : State} {l : Level} {file n : Nat} {v : Word} {wmask : Vector Word 14}
    (hp : s.cfg.intrLogic = .plainStorage wmask) (hl : s.intrLegal = true) (x : Xlen) :
    (iregWr l file n x s v).intr.getIreg l file n = fit x v := by
  simp only [State.intrLegal, hp, Bool.and_eq_true] at hl
  simp only [iregWr, hp, withIntr_intr]
  cases l <;> simp only [Intr.getIreg, Intr.setIreg] <;>
    exact RegMap.get_set_self (lo := 0) _ _ _ (by simp_all [RegMap.wf])

/-- An access to an indirect register has a select value below 256 and a file number fixed by the level. -/
theorem accessCheck_ireg {c : CsrNum} {wr : Bool} {s : State} {l : Level} {file n : Nat}
    (h : accessCheck c wr s = .ok (.ireg l file n)) :
    n < 256 ∧ (l = .M ∨ l = .S → file = 0) ∧ (l = .VS → file = s.vgein) := by
  obtain ⟨e, -, hc⟩ := accessCheck_ok h
  unfold csrCheck at hc
  split at hc
  · simp at hc
  split at hc
  · simp at hc
  split at hc
  · have := topeiVirtual_ok hc; simp at this
  split at hc
  · simp at hc
  split at hc
  · simp at hc
  split at hc
  · unfold checkV0 at hc
    split at hc
    · simp at hc
    split at hc
    · obtain ⟨a, -, b⟩ := miregAccess_ok hc
      simp [Isel.within] at a b
      refine ⟨?_, ?_, ?_⟩ <;> simp_all <;> omega
    · obtain ⟨a, -, b⟩ := siregAccess_ok hc
      simp [Isel.within] at a b
      refine ⟨?_, ?_, ?_⟩ <;> simp_all <;> omega
    · obtain ⟨a, -, b, -⟩ := vsiregDirect_ok hc
      simp [Isel.within] at a b
      refine ⟨?_, ?_, ?_⟩ <;> simp_all <;> omega
    · split at hc <;> simp at hc
    · rw [plainTarget_ok_iff] at hc; simp at hc
  · obtain ⟨-, ⟨-, h⟩ | ⟨-, -, -, e', -, h⟩⟩ := checkV1_ok hc
    · obtain ⟨a, -, b, -⟩ := siregVirtual_ok h
      simp [Isel.within] at a b
      refine ⟨?_, ?_, ?_⟩ <;> simp_all <;> omega
    · rw [plainTarget_ok_iff] at h; simp at h

end Sys2Proof.Machine
end

