-- ==== Sys2Proof/Tests/Slice0.lean ====
section
/-! SUPPORT. Small tests. Expected values are those of 95_test_vectors.md (the name of the vector is in the test's
comment) or of the rule named; the witnesses show that the hypotheses of the obligations can be met, each clause at
boundary values. -/

namespace Sys2Proof.Tests

open Sys2Proof.Machine

/-! ### Start states: the baseline `S0` of 95_test_vectors.md section 0, in a mode -/

def ones : Vector Word 14 := Vector.replicate 14 (BitVec.allOnes 64)

def plainCfg : Cfg := { Cfg.baseline with intrLogic := .plainStorage ones }

/-- `S0` in mode M. -/
def s0 : State :=
  { State.reset with
    cfg := plainCfg, vgein := 1, iselM := ⟨false, 0x30⟩, iselS := ⟨false, 0x30⟩, iselVS := ⟨false, 0x70⟩,
    mstateen0 := ⟨true, true, true⟩, hstateen0 := ⟨true, true, true⟩ }

/-- `S0` in another mode. -/
def inMode (md : Mode) : State := { s0 with mode := md }

/-- `S0` with `x5` and `mie` given. -/
def sRegs (x5 mie : Word) : State :=
  { s0 with x := s0.x.set 5 x5, intr := s0.intr.set64 .mie mie }

/-- A state with its select registers replaced. -/
def withSel (s : State) (m v w : Nat) : State := { s with iselM := ⟨false, m⟩, iselS := ⟨false, v⟩, iselVS := ⟨false, w⟩ }

/-- The baseline configuration with every XLEN 32. -/
def cfg32 : Cfg := { plainCfg with mxlen := .w32, sxlen := .w32, vsxlen := .w32, uxlen := .w32, vuxlen := .w32 }

/-- The baseline configuration without an IMSIC. -/
def cfgNoImsic : Cfg := { plainCfg with hasImsic := false, geilen := 0, hstateen058Impl := false }

/-- The baseline configuration with Smcsrind and Sscsrind. -/
def cfgAliases : Cfg := { plainCfg with hasSmcsrind := true, hasSscsrind := true }

/-- The next state of an outcome, to name it. -/
def after : Outcome → State
  | .next t => t
  | _ => State.reset

def isNext : Outcome → Bool
  | .next _ => true
  | _ => false

def faultOf : Outcome → Option Fault
  | .fault f => some f
  | _ => none

def refusalOf : Outcome → Option Refusal
  | .refused r => some r
  | _ => none

theorem next_after {o : Outcome} (h : isNext o = true) : o = .next (after o) := by
  cases o with
  | next t => rfl
  | fault f => cases h
  | refused r => cases h

/-! ### WellFormed: an instruction of each shape with a CSR number of another specification is refused -/

theorem test_wellFormed_refuses_csrrw : (Instr.csrrw 1 0x300#12 2).wellFormed = false := by decide
theorem test_wellFormed_refuses_csrrs : (Instr.csrrs 1 0x000#12 2).wellFormed = false := by decide
theorem test_wellFormed_refuses_csrrc : (Instr.csrrc 1 0x358#12 2).wellFormed = false := by decide
theorem test_wellFormed_refuses_csrrwi : (Instr.csrrwi 1 0xFFF#12 2#5).wellFormed = false := by decide
theorem test_wellFormed_refuses_csrrsi : (Instr.csrrsi 1 0x30C#12 2#5).wellFormed = false := by decide
theorem test_wellFormed_refuses_csrrci : (Instr.csrrci 1 0x154#12 2#5).wellFormed = true ∧
    (Instr.csrrci 1 0x158#12 2#5).wellFormed = false := by decide
theorem test_wellFormed_accepts_every_csr : ∀ e ∈ Csr.all, (Instr.csrrs 0 e.number 0).wellFormed = true := by decide

/-- The master table has 41 rows (R26), and no number stands twice. -/
theorem test_table_has_41_numbers : Csr.all.length = 41 ∧ (Csr.all.map Csr.number).Nodup := by decide

/-- R126: bits 11:10 of a number are `11` exactly for the read-only codes, bits 9:8 give the lowest privilege (a
check of the table; general knowledge K4 of the spec). -/
theorem test_numbers_match_codes : ∀ e ∈ Csr.all,
    (e.number.extractLsb' 10 2 = 3#2 ↔ e.row.code.readOnly = true) ∧
    e.number.extractLsb' 8 2 = (match e.row.level with | .M => 3#2 | .S => 1#2 | .H => 2#2) := by decide

/-! ### Decoding: words of section 2, written out bit by bit -/

theorem test_decode_csrrw :
    decodeWord 0b001001010000_11111_001_11111_1110011#32 = .ok (.csrrw 31 0x250#12 31) := by rfl
theorem test_decode_csrrs :
    decodeWord 0b110110110000_00000_010_00111_1110011#32 = .ok (.csrrs 7 0xDB0#12 0) := by rfl
theorem test_decode_csrrc :
    decodeWord 0b001100000100_00101_011_01011_1110011#32 = .ok (.csrrc 11 0x304#12 5) := by rfl
theorem test_decode_csrrwi :
    decodeWord 0b001100010100_00001_101_00000_1110011#32 = .ok (.csrrwi 0 0x314#12 1#5) := by rfl
theorem test_decode_csrrsi :
    decodeWord 0b001101011100_00000_110_00001_1110011#32 = .ok (.csrrsi 1 0x35C#12 0#5) := by rfl
theorem test_decode_csrrci :
    decodeWord 0b011000001001_11111_111_00000_1110011#32 = .ok (.csrrci 0 0x609#12 31#5) := by rfl

theorem test_decode_refuses :
    decodeWord 0x00000073#32 = .error .funct3Zero ∧ decodeWord 0x30200073#32 = .error .funct3Zero ∧
    decodeWord 0x35104373#32 = .error .funct3Four ∧ decodeWord 0x35029013#32 = .error .otherOpcode :=
  ⟨rfl, rfl, rfl, rfl⟩

/-- Encoding is checked against the printed words, not against the decoder. -/
theorem test_encode :
    encodeWord (.csrrw 6 0x350#12 5) = 0x35029373#32 ∧ encodeWord (.csrrs 6 0x15C#12 0) = 0x15C02373#32 ∧
    encodeWord (.csrrc 11 0x304#12 5) = 0x3042B5F3#32 ∧ encodeWord (.csrrwi 0 0x350#12 16#5) = 0x35085073#32 ∧
    encodeWord (.csrrsi 9 0x304#12 3#5) = 0x3041E4F3#32 ∧ encodeWord (.csrrci 10 0x304#12 2#5) = 0x30417573#32 := by
  decide

theorem test_bytes_little_endian : encode (.csrrw 0 0x350#12 5) = [0x73#8, 0x90#8, 0x02#8, 0x35#8] := by decide

/-! ### The six instructions (section 3), two vectors each: (x[rd], mie, pc) after -/

/-- What a vector of section 3 shows. -/
def shows (o : Outcome) (rd : Reg) : Word × Word × Word :=
  ((after o).readReg rd, (after o).intr.get64 .mie, (after o).pc)

/-- I4: `rd = rs1` swaps. -/
theorem test_csrrw_swap : shows (exec (.csrrw 5 0x304#12 5) (sRegs 8 0x222)) 5 = (0x222, 8, 4) := by decide
/-- I3: `rs1 = x0` writes zero. -/
theorem test_csrrw_x0 : shows (exec (.csrrw 6 0x304#12 0) (sRegs 8 0x222)) 6 = (0x222, 0, 4) := by decide
/-- I6 -/
theorem test_csrrs_sets : shows (exec (.csrrs 6 0x304#12 5) (sRegs 0x808 0x222)) 6 = (0x222, 0xA2A, 4) := by decide
/-- I22: `rs1 != x0` holding zero is still a write. -/
theorem test_csrrs_readOnly : faultOf (exec (.csrrs 5 0xFB0#12 6) s0) = some .illegalInstruction := by decide
/-- I9 -/
theorem test_csrrc_clears : shows (exec (.csrrc 11 0x304#12 5) (sRegs 0x22 0x222)) 11 = (0x222, 0x200, 4) := by decide
/-- I11 -/
theorem test_csrrc_rd_x0 : shows (exec (.csrrc 0 0x304#12 5) (sRegs (BitVec.allOnes 64) 0x222)) 0 = (0, 0, 4) := by decide
/-- I12 -/
theorem test_csrrwi_writes : shows (exec (.csrrwi 6 0x304#12 31#5) (sRegs 8 0x222)) 6 = (0x222, 0x1F, 4) := by decide
/-- I13: zero is written. -/
theorem test_csrrwi_zero : shows (exec (.csrrwi 0 0x304#12 0#5) (sRegs 8 0x222)) 0 = (0, 0, 4) := by decide
/-- I14 -/
theorem test_csrrsi_sets : shows (exec (.csrrsi 9 0x304#12 3#5) (sRegs 0 8)) 9 = (8, 0xB, 4) := by decide
/-- I23: `uimm = 0` does not write, so a read-only CSR is read. -/
theorem test_csrrsi_zero_reads : shows (exec (.csrrsi 5 0xFB0#12 0#5) (sRegs 1 2)) 5 = (0, 2, 4) := by decide
/-- I17: the immediate clears bits 4:0 only. -/
theorem test_csrrci_clears : shows (exec (.csrrci 10 0x304#12 31#5) (sRegs 0 (BitVec.allOnes 64))) 10 =
    (BitVec.allOnes 64, 0xFFFFFFFFFFFFFFE0, 4) := by decide
/-- I24 -/
theorem test_csrrci_readOnly : faultOf (exec (.csrrci 5 0xFB0#12 1#5) s0) = some .illegalInstruction := by decide

/-! ### Select registers and widths -/

/-- W1: with MXLEN = 64 and SXLEN = 32 the custom flag of `siselect` is at bit 63 for M-mode and at bit 31 for S-mode. -/
theorem test_custom_bit_moves :
    let s := { s0 with cfg := { plainCfg with sxlen := .w32, vsxlen := .w32, iselCustomS := true },
                       x := s0.x.set 5 0x8000000000000030 }
    let t := after (exec (.csrrw 0 0x150#12 5) s)
    csrRead (.sel .S) t = 0x8000000000000030 ∧ csrRead (.sel .S) { t with mode := .hs } = 0x80000030 := by decide

/-- S4, S16 -/
theorem test_select_masks :
    (Isel.legalise 8 false .w64 0x1FF).val = 0xFF ∧ (Isel.legalise 9 false .w64 0x3FF).val = 0x1FF := by decide

/-- R150: a 32-bit result is kept sign-extended and is seen as 32 bits. -/
theorem test_widen : widen .w32 0x80000000 = 0xFFFFFFFF80000000 ∧ fit .w32 (widen .w32 0x80000000) = 0x80000000 := by decide

/-- R27: the half that is not named stays as it was. -/
theorem test_halves :
    mergeLow .w32 0x1122334455667788 0xAABBCCDD = 0x11223344AABBCCDD ∧
    mergeHigh 0x1122334455667788 0xAABBCCDD = 0xAABBCCDD55667788 := by decide

/-! ### Access outcomes -/

/-- W9: an inaccessible select value, with VGEIN not valid. -/
theorem test_inaccessible :
    let s := { s0 with vgein := 2 }
    accessCheck 0x251#12 false s = .illegal ∧ accessCheck 0x251#12 false { s with mode := .hs } = .illegal ∧
    accessCheck 0x151#12 false { s with mode := .vs } = .virtual := by decide

/-- W4: no IMSIC gives virtual; with one and `mstateen0[58] = 0`, illegal. -/
theorem test_no_imsic :
    let s := { inMode .vs with cfg := cfgNoImsic, mstateen0 := ⟨true, true, false⟩, vgein := 0 }
    accessCheck 0x151#12 false s = .virtual ∧ accessCheck 0x15C#12 false s = .virtual ∧
    accessCheck 0x15C#12 false { s with cfg := plainCfg } = .illegal := by decide

/-- W5: `sieh` from VS-mode with `hstateen0[59] = 0`. -/
theorem test_high_half :
    let s := { inMode .vs with hstateen0 := ⟨true, false, true⟩ }
    accessCheck 0x114#12 false s = .illegal ∧ accessCheck 0x114#12 false { s with cfg := cfg32 } = .virtual ∧
    accessCheck 0x114#12 false { inMode .vs with cfg := cfg32 } = .ok (.high .vsie) := by decide

/-- W12 -/
theorem test_aliases :
    let s := { s0 with cfg := cfgAliases }
    accessCheck 0x352#12 false s = .illegal ∧ accessCheck 0x152#12 false { s with mode := .vs } = .virtual ∧
    accessCheck 0x352#12 false (withSel s 0 0 0) = .refuse .smcsrind := by decide

/-- The fetch at reset: a table row's word is what the next step runs. -/
theorem test_withFetchWord :
    (State.reset.withFetchWord 32 0x35029073).mem.readBytes 0 4 = some [0x73#8, 0x90#8, 0x02#8, 0x35#8] ∧
    step (State.reset.withFetchWord 32 0x35029073) =
      exec (.csrrw 0 0x350#12 5) (State.reset.withFetchWord 32 0x35029073) :=
  ⟨by decide, rfl⟩

theorem test_reset_memory_wf : State.reset.mem.wf = true := by decide

/-! ### Witnesses: the hypotheses of each obligation, clause by clause, met by concrete states and operands -/

theorem witness_EncodeOfDecode : decodeWord 0x35029073#32 = .ok (.csrrw 0 0x350#12 5) := by rfl

theorem witness_DecodeFollowsTheTable :
    0x35029073#32 &&& 0x0000707F#32 = 0x00001073#32 ∧ 0x35102373#32 &&& 0x0000707F#32 = 0x00002073#32 ∧
    0x3042B5F3#32 &&& 0x0000707F#32 = 0x00003073#32 ∧ 0x35085073#32 &&& 0x0000707F#32 = 0x00005073#32 ∧
    0x3041E4F3#32 &&& 0x0000707F#32 = 0x00006073#32 ∧ 0x609FF073#32 &&& 0x0000707F#32 = 0x00007073#32 := by decide

theorem witness_DecodeRefusesOtherWords :
    0x35029013#32 &&& 0x7F#32 ≠ 0x73#32 ∧ 0x30200073#32 &&& 0x707F#32 = 0x0073#32 ∧
    0x35104373#32 &&& 0x707F#32 = 0x4073#32 := by decide

/-- `S0` about to run `csrrw x0, miselect, x5`. -/
def sFetch : State := s0.withFetchWord 32 0x35029073

theorem witness_StepRunsDecodedInstruction :
    sFetch.fetchAddr % 4 = 0 ∧ sFetch.mem.readBytes sFetch.fetchAddr 4 = some [0x73#8, 0x90#8, 0x02#8, 0x35#8] ∧
    decode [0x73#8, 0x90#8, 0x02#8, 0x35#8] = .ok (.csrrw 0 0x350#12 5, []) := ⟨by decide, by decide, rfl⟩

theorem witness_StepRefusesWithoutInstruction :
    State.fetchAddr { s0 with pc := 2 } % 4 ≠ 0 ∧ s0.fetchAddr % 4 = 0 ∧ s0.mem.readBytes s0.fetchAddr 4 = none ∧
    (s0.withFetchWord 32 0x73).mem.readBytes (s0.withFetchWord 32 0x73).fetchAddr 4 =
      some [0x73#8, 0#8, 0#8, 0#8] ∧ decode [0x73#8, 0#8, 0#8, 0#8] = .error .funct3Zero :=
  ⟨by decide, by decide, by decide, by decide, rfl⟩

theorem witness_EveryStepKeepsLegalStates : sFetch.wf = true ∧ step sFetch = .next (after (step sFetch)) :=
  ⟨by decide, next_after (by decide)⟩

theorem witness_RegisterWriteThenRead :
    (5 : Reg) ≠ 0 ∧ (31 : Reg) ≠ 5 ∧ State.xlen { s0 with cfg := cfg32 } = .w32 ∧ 32 ≤ 63 ∧ 63 < 64 := by decide

theorem witness_FrameOfEveryInstruction :
    exec (.csrrs 6 0x304#12 0) s0 = .next (after (exec (.csrrs 6 0x304#12 0) s0)) ∧ (5 : Reg) ≠ 6 ∧
    (use (.csrrs 6 0x304#12 0)).writes = false ∧ isNext (exec (.csrrw 6 0x150#12 5) (inMode .vs)) = true ∧
    accessCheck 0x150#12 (use (.csrrw 6 0x150#12 5)).writes (inMode .vs) = .ok (.sel .VS) ∧ Level.S ≠ .VS :=
  ⟨next_after (by decide), by decide, by decide, by decide, by decide, by decide⟩

theorem witness_PlainStorageFrame :
    (inMode .vs).cfg.intrLogic = .plainStorage ones ∧
    accessCheck 0x151#12 true (inMode .vs) = .ok (.ireg .VS 1 0x70) ∧
    isNext (exec (.csrrw 0 0x151#12 5) (inMode .vs)) = true ∧
    Target.ireg .VS 1 0x70 ≠ .ireg .VS 1 0xFF ∧ Target.ireg .VS 1 0x70 ≠ .ireg .VS 0 0x70 ∧ 255 < 256 ∧
    0 ≠ (inMode .vs).vgein := by decide

theorem witness_CsrrwCompletes : accessCheck 0x304#12 true s0 = .ok (.full .mie) := by decide
theorem witness_CsrrsCompletes : accessCheck 0xFB0#12 false s0 = .ok (.top .M) ∧ (31 : Reg) ≠ 0 ∧
    accessCheck 0x351#12 true s0 = .ok (.ireg .M 0 0x30) := by decide
theorem witness_CsrrcCompletes : accessCheck 0xDB0#12 false (inMode .vs) = .ok (.top .VS) ∧ (1 : Reg) ≠ 0 ∧
    accessCheck 0x15C#12 true (inMode .hs) = .ok (.own .stopei) := by decide
theorem witness_CsrrwiCompletes : accessCheck 0x150#12 true (inMode .vs) = .ok (.sel .VS) := by decide
theorem witness_CsrrsiCompletes : accessCheck 0x104#12 false (inMode .hs) = .ok (.full .sie) ∧ 31#5 ≠ 0#5 ∧
    accessCheck 0x609#12 true (inMode .hs) = .ok (.own .hvictl) := by decide
theorem witness_CsrrciCompletes : accessCheck 0x314#12 false { s0 with cfg := cfg32 } = .ok (.high .mie) ∧ 1#5 ≠ 0#5 ∧
    accessCheck 0x25C#12 true s0 = .ok (.own .vstopei) := by decide

/-- A machine-level CSR written from M-mode, a read-only one read from HS-mode, and `vstopei` with VGEIN = GEILEN. -/
theorem witness_ExistingCsrAccessCompletes :
    (reachableV0 .mie s0 ∧ (∀ l, Csr.mie.row.reach ≠ .window l) ∧ Csr.mie.row.code.readOnly = false) ∧
    (reachableV0 .stopi (inMode .hs) ∧ (∀ l, Csr.stopi.row.reach ≠ .window l) ∧
      (use (.csrrs 6 0xDB0#12 0)).writes = false) ∧
    (reachableV0 .vstopei (inMode .hs) ∧ (∀ l, Csr.vstopei.row.reach ≠ .window l) ∧ 1 ≤ (inMode .hs).vgein ∧
      (inMode .hs).vgein ≤ (inMode .hs).cfg.geilen) := by
  refine ⟨⟨by unfold reachableV0; decide, ?_, by decide⟩, ⟨by unfold reachableV0; decide, ?_, by decide⟩,
    ⟨by unfold reachableV0; decide, ?_, by decide, by decide⟩⟩ <;> (intro l; cases l <;> decide)

theorem witness_GuestCsrAccessCompletes :
    (inMode .vs).cfg.hasS = true ∧ (inMode .vs).mode = .vs ∧ (inMode .vs).ms .b60 = true ∧ (inMode .vs).hs .b60 = true ∧
    State.cfg { inMode .vs with cfg := cfg32 } = cfg32 ∧ cfg32.hasS = true ∧ cfg32.vsxlen = .w32 ∧
    State.ms { inMode .vs with cfg := cfg32 } .b59 = true ∧ State.hs { inMode .vs with cfg := cfg32 } .b59 = true ∧
    (use (.csrrs 6 0xDB0#12 0)).writes = false := by decide

theorem witness_SelectWriteThenRead :
    s0.cfg.wf = true ∧ selectAllowed s0 0x350#12 .M ∧ selectAllowed s0 0x150#12 .S ∧
    selectAllowed (inMode .hs) 0x150#12 .S ∧ selectAllowed (inMode .hs) 0x250#12 .VS ∧
    selectAllowed (inMode .vs) 0x150#12 .VS ∧ (6 : Reg) ≠ 0 := by
  unfold selectAllowed
  refine ⟨by decide, by decide, by decide, by decide, by decide, by decide, by decide⟩

/-- The three ranges, at their greatest values. -/
theorem witness_SelectHoldsRequiredRange :
    (s0.cfg.wf = true ∧ selectAllowed (sRegs 0xFF 0) 0x350#12 .M ∧ ((sRegs 0xFF 0).readReg 5).toNat < 0x100) ∧
    (selectAllowed (sRegs 0x1FF 0) 0x250#12 .VS ∧ ((sRegs 0x1FF 0).readReg 5).toNat < 0x200) ∧
    (cfgNoImsic.wf = true ∧ selectAllowed { sRegs 0x3F 0 with cfg := cfgNoImsic } 0x150#12 .S ∧
      (State.readReg { sRegs 0x3F 0 with cfg := cfgNoImsic } 5).toNat < 0x40) := by
  unfold selectAllowed
  refine ⟨⟨by decide, by decide, by decide⟩, ⟨by decide, by decide⟩, by decide, by decide, by decide⟩

theorem witness_CustomBitMovesWithXlen : (⟨true, 2 ^ 31 - 1⟩ : Isel).val < 2 ^ 31 := by decide

theorem witness_FullNameAccess :
    Csr.mie.row.reach = .full .mie ∧ reachableV0 .mie s0 ∧ Csr.sip.row.reach = .full .sip ∧
    reachableV0 .sip { inMode .hs with cfg := cfg32 } := by unfold reachableV0; decide

theorem witness_HighHalfAccess :
    Csr.mieh.row.reach = .high .mie ∧ reachableV0 .mieh { s0 with cfg := cfg32 } ∧
    Csr.sieh.row.reach = .high .sie ∧ reachableV0 .sieh { inMode .hs with cfg := cfg32 } := by
  unfold reachableV0; decide

theorem witness_GuestInterruptRegisterAccess :
    (inMode .vs).cfg.hasS = true ∧ (inMode .vs).mode = .vs ∧ (inMode .vs).ms .b59 = true ∧ (inMode .vs).hs .b59 = true ∧
    State.cfg { inMode .vs with cfg := cfg32 } = cfg32 ∧ cfg32.vsxlen = .w32 ∧ plainCfg.vsxlen = .w64 := by decide

theorem witness_PlainStorageRegisterReadsBack :
    s0.cfg.intrLogic = .plainStorage ones ∧ Csr.mie.row.reach = .full .mie ∧ reachableV0 .mie s0 ∧
    reachableV0 .mie { s0 with cfg := cfg32 } ∧ (6 : Reg) ≠ 0 ∧ cfg32.mxlen.bits ≤ 32 := by unfold reachableV0; decide

/-- The baseline configuration without the hypervisor extension, and without S-mode. -/
def cfgNoH : Cfg := { cfgNoImsic with hasH := false }
def cfgNoS : Cfg := { cfgNoH with hasS := false }

/-- A CSR of each kind of absence; with an XLEN of 32 in the place of 64 the high half exists. -/
theorem witness_AbsentCsrIsIllegal :
    csrExists .siselect { s0 with cfg := cfgNoS } = false ∧ csrExists .mvien { s0 with cfg := cfgNoS } = false ∧
    csrExists .hideleg { s0 with cfg := cfgNoH } = false ∧ csrExists .mtopei { s0 with cfg := cfgNoImsic } = false ∧
    csrExists .sieh (inMode .vs) = false ∧ (inMode .vs).mode.virt = true ∧ Csr.sieh ≠ .stopei ∧
    csrExists .mieh s0 = false ∧ csrExists .mieh { s0 with cfg := cfg32 } = true ∧ csrExists .mie s0 = true ∧
    faultOf (exec (.csrrs 6 0x35C#12 0) { s0 with cfg := cfgNoImsic }) = some .illegalInstruction := by decide

theorem witness_WriteToReadOnlyIsIllegal :
    (use (.csrrs 5 0xFB0#12 6)).writes = true ∧ (use (.csrrw 0 0xDB0#12 0)).writes = true ∧
    (use (.csrrci 5 0xEB0#12 1#5)).writes = true := by decide

theorem witness_TopInterruptReads :
    s0.mode = .m ∧ reachableV0 .stopi (inMode .hs) ∧ reachableV0 .vstopi (inMode .hs) ∧ (inMode .vs).mode = .vs ∧
    (inMode .vs).cfg.hasS = true ∧ (inMode .vs).ms .b59 = true ∧ (inMode .vs).hs .b59 = true := by
  unfold reachableV0; decide

theorem witness_OwnWidthAccess :
    s0.cfg.wf = true ∧ Csr.mtopei.row.reach = .own .mtopei ∧ reachableV0 .mtopei s0 ∧
    Csr.stopei.row.reach = .own .stopei ∧ reachableV0 .stopei (inMode .hs) ∧ Csr.hvictl.row.reach = .own .hvictl ∧
    reachableV0 .hvictl s0 ∧ Csr.vstopei.row.reach = .own .vstopei ∧ reachableV0 .vstopei (inMode .hs) ∧
    1 ≤ (inMode .hs).vgein ∧ (inMode .hs).vgein ≤ (inMode .hs).cfg.geilen ∧ (inMode .vs).mode = .vs ∧
    (inMode .vs).cfg.hasImsic = true ∧ (inMode .vs).ms .b58 = true ∧ (inMode .vs).hs .b58 = true ∧
    1 ≤ (inMode .vs).vgein ∧ (inMode .vs).vgein ≤ (inMode .vs).cfg.geilen := by unfold reachableV0; decide

theorem witness_MachineCsrsOnlyInMMode : Csr.mie.row.level = .M ∧ (inMode .vu).mode ≠ .m := by decide
theorem witness_UModeAccessIsIllegal : (inMode .u).mode = .u := by decide
theorem witness_NoVirtualInstructionWhenV0 : s0.mode.virt = false ∧ (inMode .hs).mode.virt = false := by decide
theorem witness_MModeIgnoresStateEnables : s0.mode = .m := by decide
theorem witness_V0IgnoresHstateen0 : (inMode .hs).mode.virt = false ∧ (inMode .u).mode.virt = false := by decide

/-- Each of the eight supervisor numbers reaches its twin from VS-mode. -/
theorem witness_GuestReachesOnlyTwins :
    (inMode .vs).mode.virt = true ∧ accessCheck 0x150#12 true (inMode .vs) = .ok (.sel .VS) ∧
    accessCheck 0x151#12 true (withSel (inMode .vs) 0 0 0xFF) = .ok (.ireg .VS 1 0xFF) ∧
    accessCheck 0x104#12 true (inMode .vs) = .ok (.full .vsie) ∧
    accessCheck 0x144#12 true (inMode .vs) = .ok (.full .vsip) ∧
    accessCheck 0x114#12 true { inMode .vs with cfg := cfg32 } = .ok (.high .vsie) ∧
    accessCheck 0x154#12 true { inMode .vs with cfg := cfg32 } = .ok (.high .vsip) ∧
    accessCheck 0xDB0#12 false (inMode .vs) = .ok (.top .VS) ∧
    accessCheck 0x15C#12 true (inMode .vs) = .ok (.own .vstopei) := by decide

theorem witness_GuestIsolation :
    (inMode .vs).mode.virt = true ∧ isNext (exec (.csrrw 0 0x150#12 5) (inMode .vs)) = true ∧
    isNext (exec (.csrrs 6 0x104#12 0) (inMode .vs)) = true ∧ (use (.csrrs 6 0x104#12 0)).writes = false ∧
    isNext (exec (.csrrw 0 0x151#12 5) (inMode .vs)) = true ∧
    (inMode .vs).cfg.intrLogic = .plainStorage ones ∧ Reg64.mie ≠ .vsie ∧ Reg64.mie ≠ .vsip ∧
    2 ≠ (inMode .vs).vgein ∧ 255 < 256 := by decide

theorem witness_DefaultVirtualInstructionRule :
    Csr.hvictl ∉ [Csr.sireg, .vsireg, .stopei, .vstopei] ∧ (inMode .vs).mode = .vs ∧ Csr.hvictl.row.level = .H ∧
    Csr.sieh ∉ [Csr.sireg, .vsireg, .stopei, .vstopei] ∧ (inMode .vu).mode = .vu ∧ Csr.sieh.row.level ≠ .M ∧
    faultOf (exec (.csrrs 6 0x609#12 0) (inMode .vs)) = some .virtualInstruction ∧
    faultOf (exec (.csrrs 6 0x114#12 0) (inMode .vu)) = some .illegalInstruction := by decide

/-- `S0` in a mode, with the three bits of both state-enable registers given. -/
def withBits (md : Mode) (a b : StateEnable) : State := { inMode md with mstateen0 := a, hstateen0 := b }

def allBits : StateEnable := ⟨true, true, true⟩

theorem witness_Mstateen60ZeroIsIllegal :
    (withBits .hs ⟨false, true, true⟩ allBits).cfg.hasSmstateen = true ∧
    (withBits .hs ⟨false, true, true⟩ allBits).mstateen0Bit .b60 = false ∧
    (withBits .hs ⟨false, true, true⟩ allBits).mode ≠ .m := by decide

theorem witness_Bit59ControlsItsList :
    (withBits .hs ⟨true, false, true⟩ allBits).cfg.hasSmstateen = true ∧
    (withBits .hs ⟨true, false, true⟩ allBits).mstateen0Bit .b59 = false ∧
    (withBits .hs ⟨true, false, true⟩ allBits).mode = .hs ∧
    (withBits .hs ⟨true, false, true⟩ allBits).iselS.within 0x30 0x3F ∧
    (withSel (withBits .hs ⟨true, false, true⟩ allBits) 0 0x3F 0).iselS.within 0x30 0x3F ∧
    Csr.mie.number = 0x304#12 ∧ Csr.mie.row.level = .M := by decide

theorem witness_Mstateen58ZeroIsIllegal :
    (withBits .hs ⟨true, true, false⟩ allBits).cfg.hasSmstateen = true ∧
    (withBits .hs ⟨true, true, false⟩ allBits).cfg.hasImsic = true ∧
    (withBits .hs ⟨true, true, false⟩ allBits).mstateen0Bit .b58 = false ∧
    (withBits .hs ⟨true, true, false⟩ allBits).mode ≠ .m ∧
    (∀ n ∈ [0x70, 0xFF], (withSel (withBits .hs ⟨true, true, false⟩ allBits) n n n).iselS.within 0x70 0xFF) ∧
    (∀ n ∈ [0x70, 0xFF], (withSel (withBits .vs ⟨true, true, false⟩ allBits) n n n).iselVS.within 0x70 0xFF) ∧
    (withBits .vs ⟨true, true, false⟩ allBits).mstateen0Bit .b58 = false ∧
    (withBits .vs ⟨true, true, false⟩ allBits).hs .b60 = true := by decide

theorem witness_VsiregAndSiregForGuests :
    (inMode .vs).cfg.wf = true ∧ (inMode .vs).cfg.hasH = true ∧ (inMode .vs).mode.virt = true ∧
    (inMode .vu).mode = .vu ∧ (inMode .vu).mstateen0Bit .b60 = true ∧
    (withBits .vu ⟨false, true, true⟩ allBits).mstateen0Bit .b60 = false := by decide

theorem witness_Hstateen60ZeroIsVirtual :
    let s := withBits .vs ⟨true, false, false⟩ ⟨false, true, true⟩
    s.cfg.wf = true ∧ s.cfg.hasH = true ∧ s.cfg.hasSmstateen = true ∧ s.mstateen0Bit .b60 = true ∧
    s.hstateen0Bit .b60 = false ∧ s.mode.virt = true := by decide

/-- From VS-mode with bit 59 of `hstateen0` zero, at either XLEN, and from VU-mode. -/
theorem witness_Hstateen59ZeroIsVirtual :
    let s := withBits .vs ⟨false, true, false⟩ ⟨true, false, true⟩
    let s32 := { s with cfg := cfg32 }
    s.cfg.wf = true ∧ s.cfg.hasH = true ∧ s.cfg.hasSmstateen = true ∧ s.mstateen0Bit .b59 = true ∧ s.mode.virt = true ∧
    s.hstateen0Bit .b59 = false ∧ (use (.csrrs 6 0xDB0#12 0)).writes = false ∧ s.xlen = .w64 ∧
    cfg32.wf = true ∧ cfg32.hasH = true ∧ cfg32.hasSmstateen = true ∧ s32.mstateen0Bit .b59 = true ∧
    s32.mode.virt = true ∧ s32.hstateen0Bit .b59 = false ∧ s32.xlen = .w32 ∧
    (withBits .vu allBits allBits).mode = .vu ∧ (withBits .vu allBits allBits).mstateen0Bit .b59 = true := by decide

theorem witness_NoImsicGivesVirtual :
    let s := { inMode .vs with cfg := cfgNoImsic }
    s.cfg.wf = true ∧ s.cfg.hasImsic = false ∧ s.cfg.hasH = true ∧ s.mode = .vs ∧ s.iselVS.within 0x70 0xFF ∧
    (withSel s 0 0 0xFF).iselVS.within 0x70 0xFF ∧ s.ms .b60 = true ∧ s.hs .b60 = true := by decide

theorem witness_Hstateen58ZeroIsLikeVgeinZero :
    let s := withBits .vs allBits ⟨true, true, false⟩
    s.cfg.hasSmstateen = true ∧ s.cfg.hasH = true ∧ s.hstateen0Bit .b58 = false ∧ s.mode.virt = true ∧
    (withBits .hs allBits ⟨true, true, false⟩).mode.virt = false ∧ s.mode = .vs ∧ s.cfg.hasS = true ∧
    s.ms .b58 = true ∧ s.ms .b60 = true ∧ s.hs .b60 = true ∧ s.iselVS.within 0x70 0xFF := by decide

/-- The boundary select values of the classes: reserved below, between and above the two ranges. -/
theorem witness_MiregByMiselect :
    s0.mode = .m ∧ (⟨true, 0x30⟩ : Isel).custom = true ∧
    (∀ n ∈ [0x0, 0x2F, 0x40, 0x6F, 0x100], ¬ (withSel s0 n n n).iselM.inAiaRange) ∧
    (∀ n ∈ [0x30, 0x3F], (withSel s0 n n n).iselM.within 0x30 0x3F) ∧
    (∀ n ∈ [0x70, 0xFF], (withSel s0 n n n).iselM.within 0x70 0xFF) ∧ cfgNoImsic.hasImsic = false ∧
    iregExists s0.cfg .M 0 0x30 s0.xlen = true := by decide

theorem witness_SiregBySiselect :
    (inMode .hs).cfg.hasS = true ∧ (inMode .hs).mode = .hs ∧ (withBits .hs ⟨false, true, true⟩ allBits).ms .b60 = false ∧
    (inMode .hs).ms .b60 = true ∧ (⟨true, 0x30⟩ : Isel).custom = true ∧
    (∀ n ∈ [0x0, 0x2F, 0x40, 0x6F, 0x100], ¬ (withSel (inMode .hs) n n n).iselS.inAiaRange) ∧
    (∀ n ∈ [0x30, 0x3F], (withSel (inMode .hs) n n n).iselS.within 0x30 0x3F) ∧
    (∀ n ∈ [0x70, 0xFF], (withSel (inMode .hs) n n n).iselS.within 0x70 0xFF) ∧
    (withBits .hs ⟨true, false, true⟩ allBits).ms .b59 = false ∧
    (withBits .hs ⟨true, true, false⟩ allBits).ms .b58 = false ∧ (inMode .hs).ms .b59 = true ∧
    (inMode .hs).ms .b58 = true ∧ iregExists s0.cfg .S 0 0xFF (inMode .hs).xlen = true := by decide

theorem witness_VsiregByVsiselect :
    (inMode .hs).cfg.hasH = true ∧ (inMode .hs).mode = .hs ∧ (withBits .hs ⟨false, true, true⟩ allBits).ms .b60 = false ∧
    (inMode .hs).ms .b60 = true ∧ (⟨true, 0x70⟩ : Isel).custom = true ∧
    (∀ n ∈ [0x0, 0x2F, 0x40, 0x6F, 0x100], ¬ (withSel (inMode .hs) n n n).iselVS.inAiaRange) ∧
    (∀ n ∈ [0x30, 0x3F], (withSel (inMode .hs) n n n).iselVS.within 0x30 0x3F) ∧
    (∀ n ∈ [0x70, 0xFF], (withSel (inMode .hs) n n n).iselVS.within 0x70 0xFF) ∧
    (∀ g ∈ [0, 2], ¬ (1 ≤ g ∧ g ≤ (inMode .hs).cfg.geilen)) ∧
    (withBits .hs ⟨true, true, false⟩ allBits).ms .b58 = false ∧
    1 ≤ (inMode .hs).vgein ∧ (inMode .hs).vgein ≤ (inMode .hs).cfg.geilen ∧ (inMode .hs).ms .b58 = true ∧
    iregExists s0.cfg .VS 1 0xFF (inMode .hs).xlen = true := by decide

theorem witness_SiregFromVsMode :
    (inMode .vs).cfg.hasS = true ∧ (inMode .vs).mode = .vs ∧ (inMode .vs).ms .b60 = true ∧ (inMode .vs).hs .b60 = true ∧
    (∀ n ∈ [0x0, 0x2F, 0x40, 0x6F, 0x100, 0x1FF], ¬ (withSel (inMode .vs) n n n).iselVS.inAiaRange) ∧
    (∀ n ∈ [0x30, 0x3F], (withSel (inMode .vs) n n n).iselVS.within 0x30 0x3F) ∧
    (∀ n ∈ [0x70, 0xFF], (withSel (inMode .vs) n n n).iselVS.within 0x70 0xFF) ∧
    (withBits .vs ⟨true, true, false⟩ allBits).ms .b58 = false ∧ (inMode .vs).ms .b58 = true ∧
    (withBits .vs allBits ⟨true, true, false⟩).hs .b58 = false ∧ (inMode .vs).cfg.hasImsic = true ∧
    (inMode .vs).hs .b58 = true ∧ 1 ≤ (inMode .vs).vgein ∧ (inMode .vs).vgein ≤ (inMode .vs).cfg.geilen ∧
    iregExists s0.cfg .VS 1 0x70 (inMode .vs).xlen = true := by decide

theorem witness_InaccessibleSelectValues :
    s0.cfg.wf = true ∧ s0.cfg.hasH = true ∧
    (∀ n ∈ [0x30, 0x3F], (withSel (inMode .hs) n n n).iselVS.within 0x30 0x3F) ∧
    (∀ n ∈ [0x70, 0xFF], (withSel (inMode .vs) n n n).iselVS.within 0x70 0xFF) ∧
    ¬ (1 ≤ 2 ∧ 2 ≤ s0.cfg.geilen) ∧ (inMode .vs).ms .b60 = true ∧ (inMode .vs).hs .b60 = true ∧
    (inMode .vs).ms .b58 = true ∧ (withBits .vs allBits ⟨true, true, false⟩).hs .b58 = false := by decide

theorem witness_VstopeiAndStopei :
    s0.cfg.wf = true ∧ s0.cfg.hasH = true ∧ (inMode .u).mode = .u ∧ (inMode .vs).mode.virt = true ∧
    s0.cfg.hasImsic = true ∧ (withBits .vs ⟨true, true, false⟩ allBits).ms .b58 = false ∧
    ¬ ((inMode .vu).cfg.hasImsic = true ∧ (inMode .vu).ms .b58 = false) ∧ (inMode .vu).mode = .vu ∧
    cfgNoImsic.hasImsic = false ∧ (withBits .hs ⟨true, true, false⟩ allBits).ms .b58 = false ∧
    (inMode .hs).ms .b58 = true ∧ 1 ≤ s0.vgein ∧ s0.vgein ≤ s0.cfg.geilen ∧
    (withBits .vs allBits ⟨true, true, false⟩).hs .b58 = false ∧ (inMode .vs).hs .b58 = true := by decide

/-- `S0` with the alias CSRs present, in a mode, every select register at one value. -/
def aliasState (md : Mode) (n : Nat) : State := withSel { inMode md with cfg := cfgAliases } n n n

theorem witness_MiregAliases :
    s0.cfg.hasSmcsrind = false ∧ (aliasState .m 0x30).cfg.hasSmcsrind = true ∧ (aliasState .m 0x30).mode = .m ∧
    (aliasState .hs 0x30).cfg.hasSmcsrind = true ∧ (aliasState .hs 0x30).mode ≠ .m ∧ (aliasState .vu 0x30).mode ≠ .m ∧
    (∀ n ∈ [0x30, 0x3F, 0x70, 0xFF], (aliasState .m n).iselM.inAiaRange) ∧
    (∀ n ∈ [0x0, 0x2F, 0x40, 0x6F, 0x100], ¬ (aliasState .m n).iselM.inAiaRange) := by decide

theorem witness_SiregAliases :
    s0.cfg.hasSscsrind = false ∧ (aliasState .u 0x3F).cfg.hasSscsrind = true ∧ (aliasState .u 0x3F).mode = .u ∧
    (aliasState .hs 0x3F).cfg.hasSscsrind = true ∧ (aliasState .hs 0x3F).mode = .hs ∧
    (∀ n ∈ [0x30, 0x3F, 0x70, 0xFF], (aliasState .hs n).iselS.inAiaRange) ∧ (aliasState .hs 0x3F).ms .b60 = true ∧
    (∀ n ∈ [0x0, 0x2F, 0x40, 0x6F, 0x100], ¬ (aliasState .hs n).iselS.inAiaRange) ∧
    State.ms { aliasState .hs 0x3F with mstateen0 := ⟨false, true, true⟩ } .b60 = false := by decide

theorem witness_VsiregAliases :
    s0.cfg.hasSscsrind = false ∧ cfgNoH.hasH = false ∧ (aliasState .u 0x70).mode = .u ∧
    (aliasState .u 0x70).cfg.hasSscsrind = true ∧ (aliasState .u 0x70).cfg.hasH = true ∧
    (aliasState .vs 0x70).cfg.hasSscsrind = true ∧ (aliasState .vs 0x70).cfg.hasH = true ∧
    (aliasState .hs 0x70).mode = .hs ∧ (aliasState .hs 0x70).ms .b60 = true ∧ (aliasState .vs 0x70).mode = .vs ∧
    (aliasState .vs 0x70).ms .b60 = true ∧ (aliasState .vs 0x70).hs .b60 = true ∧
    (aliasState .vs 0x70).mode.virt = true ∧ (aliasState .vu 0x70).mode = .vu ∧
    (∀ n ∈ [0x30, 0x3F, 0x70, 0xFF], (aliasState .vs n).iselVS.inAiaRange) ∧
    (∀ n ∈ [0x0, 0x2F, 0x40, 0x6F, 0x100], ¬ (aliasState .vs n).iselVS.inAiaRange) ∧
    State.ms { aliasState .hs 0x70 with mstateen0 := ⟨false, true, true⟩ } .b60 = false ∧
    State.hs { aliasState .vs 0x70 with hstateen0 := ⟨false, true, true⟩ } .b60 = false := by decide

/-- Each disjunct of the right side is met by some instruction and state, and by another none of them is. -/
theorem witness_UnknownCsrNumbersAreRefused :
    (Instr.csrrs 6 0x300#12 0).wellFormed = false ∧ (Instr.csrrs 6 0x352#12 0).wellFormed = true ∧
    s0.cfg.hasSmcsrind = false ∧ s0.cfg.hasSscsrind = false ∧ cfgNoH.hasH = false ∧
    cfgAliases.hasSmcsrind = true ∧ cfgAliases.hasSscsrind = true ∧ cfgAliases.hasH = true ∧
    refusalOf (exec (.csrrs 6 0x352#12 0) s0) = some (.otherCsr 0x352#12) ∧
    refusalOf (exec (.csrrs 6 0x352#12 0) { s0 with cfg := cfgAliases }) = none := by decide

/-- `S0` with `x5` and `x6` given. -/
def sTwo (md : Mode) (a b : Word) : State := { inMode md with x := (s0.x.set 5 a).set 6 b }

theorem witness_MachineWindowReadsBack :
    (sTwo .m 0x30 7).wf = true ∧ (sTwo .m 0xFF 7).wf = true ∧ (sTwo .m 0x30 7).cfg.intrLogic = .plainStorage ones ∧
    (sTwo .m 0x30 7).mode = .m ∧ (7 : Reg) ≠ 0 ∧ ((sTwo .m 0x30 7).readReg 5).toNat = 0x30 ∧
    (sTwo .m 0xFF 7).cfg.hasImsic = true ∧ ((sTwo .m 0xFF 7).readReg 5).toNat = 0xFF :=
  ⟨by decide, by decide, by decide, by decide, by decide, by decide, by decide, by decide⟩

theorem witness_GuestWindowIsTheHypervisorsVsWindow :
    (sTwo .vs 0x70 7).wf = true ∧ (sTwo .vs 0xFF 7).wf = true ∧ (sTwo .vs 0x70 7).cfg.intrLogic = .plainStorage ones ∧
    (sTwo .vs 0x70 7).mode = .vs ∧ (7 : Reg) ≠ 0 ∧
    (∀ b ∈ [EnBit.b60, .b59, .b58], (sTwo .vs 0x70 7).ms b = true ∧ (sTwo .vs 0x70 7).hs b = true) ∧
    1 ≤ (sTwo .vs 0x70 7).vgein ∧ (sTwo .vs 0x70 7).vgein ≤ (sTwo .vs 0x70 7).cfg.geilen ∧
    ((sTwo .vs 0x70 7).readReg 5).toNat = 0x70 ∧ ((sTwo .vs 0xFF 7).readReg 5).toNat = 0xFF :=
  ⟨by decide, by decide, by decide, by decide, by decide, by decide, by decide, by decide, by decide, by decide⟩

end Sys2Proof.Tests
end

section
/-! PROOFS. The windows `vsireg` and `sireg` from inside a virtual machine (43_hypervisor_vs_csrs.md R247): whatever the
select value, the answer depends on the effective bit 60 of `mstateen0` alone. -/

namespace Sys2Proof.Machine

/-- With V = 1, an access to a CSR below machine level passes the steps of R350 before `CheckV1`, if the CSR is neither
`stopei` nor `vstopei`, exists, and can take the access. -/
theorem csrCheck_of_virt {e : Csr} {wr : Bool} {s : State} (hv : s.mode.virt = true) (hm : e.row.level ≠ .M)
    (htop : ¬ (e = .stopei ∨ e = .vstopei)) (hx : csrExists e s = true) (hro : e.row.code.readOnly = false) :
    csrCheck e wr s = checkV1 e s := by
  have hu : s.mode ≠ .u := by
    intro h
    rw [h] at hv
    cases hv
  simp [csrCheck, hm, hu, htop, hx, hro, hv]

/-- `vsireg` exists wherever the hypervisor extension does (R352). -/
theorem csrExists_vsireg {s : State} (hh : s.cfg.hasH = true) : csrExists .vsireg s = true := by
  simp [csrExists, Csr.row, CsrRow.hypervisor, hh]

/-- `sireg` exists wherever S-mode does (R352). -/
theorem csrExists_sireg {s : State} (hs : s.cfg.hasS = true) : csrExists .sireg s = true := by
  simp [csrExists, Csr.row, CsrRow.supervisor, hs]

/-- The effective bit 60 is zero exactly when Smstateen is implemented and the bit reads zero (R312). -/
theorem ms_b60_false_iff (s : State) :
    s.ms .b60 = false ↔ s.cfg.hasSmstateen = true ∧ s.mstateen0Bit .b60 = false := by
  simp [State.ms]

/-- The answer to a guest's access to a window it may never reach: only `mstateen0[60]` decides which exception it is
(R317 before R247). -/
def guestWindowFault (s : State) : Fault := if s.ms .b60 then .virtualInstruction else .illegalInstruction

theorem guestWindowFault_eq (s : State) :
    guestWindowFault s =
      if s.cfg.hasSmstateen = true ∧ s.mstateen0Bit .b60 = false then .illegalInstruction else .virtualInstruction := by
  simp only [guestWindowFault, ← ms_b60_false_iff]
  cases s.ms .b60 <;> rfl

theorem checkV1_vsireg (s : State) : checkV1 .vsireg s = .trap (guestWindowFault s) := by
  simp only [checkV1, guestWindowFault]
  cases s.ms .b60 <;> rfl

/-- From VU-mode R255 answers before it looks at `hstateen0` or at the select value. -/
theorem siregVirtual_of_vu {s : State} (h : s.mode = .vu) : siregVirtual s = .trap (guestWindowFault s) := by
  simp only [siregVirtual, guestWindowFault, h]
  cases s.ms .b60 <;> rfl

theorem checkV1_sireg (s : State) : checkV1 .sireg s = siregVirtual s := rfl

/-- `vsireg` by its own number from VS-mode or VU-mode. -/
theorem csrCheck_vsireg_of_virt {s : State} (hh : s.cfg.hasH = true) (hv : s.mode.virt = true) (wr : Bool) :
    csrCheck .vsireg wr s = .trap (guestWindowFault s) := by
  rw [csrCheck_of_virt hv (by decide) (by decide) (csrExists_vsireg hh) rfl, checkV1_vsireg]

/-- `sireg` from VU-mode. -/
theorem csrCheck_sireg_of_vu {s : State} (hs : s.cfg.hasS = true) (hm : s.mode = .vu) (wr : Bool) :
    csrCheck .sireg wr s = .trap (guestWindowFault s) := by
  have hv : s.mode.virt = true := by rw [hm]; rfl
  rw [csrCheck_of_virt hv (by decide) (by decide) (csrExists_sireg hs) rfl, checkV1_sireg, siregVirtual_of_vu hm]

/-- Settles O43: each of the two accesses reaches `CheckV1`, which answers it from bit 60 of `mstateen0` alone. -/
theorem vsiregAndSiregForGuests : Obligations.VsiregAndSiregForGuests := by
  intro i s hwf hh haccess
  rw [← guestWindowFault_eq]
  apply exec_of_trap
  rcases haccess with ⟨hv, hc⟩ | ⟨hm, hc⟩
  · have hnum : i.csr = Csr.number .vsireg := hc
    rw [hnum, accessCheck_number]
    exact csrCheck_vsireg_of_virt hh hv _
  · have hnum : i.csr = Csr.number .sireg := hc
    rw [hnum, accessCheck_number]
    exact csrCheck_sireg_of_vu (hasS_of_hasH hwf hh) hm _

end Sys2Proof.Machine
end

section
/-! PROOFS. The state-enable bits (45_stateen_access_control.md): what a zero bit of `mstateen0` or `hstateen0` answers,
which CSRs no bit controls, and which guest interrupt file a virtual machine can reach. -/

namespace Sys2Proof.Machine

/-! ### A zero bit -/

/-- With Smstateen, bit 60 or bit 59 of `mstateen0` is in effect as it reads (R312); bit 58 is too, but only with an
IMSIC. -/
theorem ms_eq_mstateen0Bit {s : State} {b : EnBit} (h : s.cfg.hasSmstateen = true) (hb : b ≠ .b58) :
    s.ms b = s.mstateen0Bit b := by
  simp [State.ms, h, hb]

/-- As `ms_eq_mstateen0Bit`, for `hstateen0`, which needs the hypervisor extension besides (R312). -/
theorem hs_eq_hstateen0Bit {s : State} {b : EnBit} (h : s.cfg.hasSmstateen = true) (hh : s.cfg.hasH = true)
    (hb : b ≠ .b58) : s.hs b = s.hstateen0Bit b := by
  simp [State.hs, h, hh, hb]

/-- Only with an IMSIC can the effective bit 58 of `mstateen0` be zero. -/
theorem hasImsic_of_ms_b58_false {s : State} (h : s.ms .b58 = false) : s.cfg.hasImsic = true := by
  rw [ms_b58] at h
  simp_all

theorem checkV0_of_ms_false {e : Csr} {s : State} {b : EnBit} (hen : e.row.en = some b) (hb : s.ms b = false)
    (hm : s.mode = .hs) : checkV0 e s = .illegal := by
  simp [checkV0, hen, State.msOpt, hb, hm]

theorem topeiVirtual_of_ms_false (e : Csr) {s : State} (hb : s.ms .b58 = false) : topeiVirtual e s = .illegal := by
  simp [topeiVirtual, hasImsic_of_ms_b58_false hb, hb]

/-- Both windows make R317's test of bit 60 first, every other CSR the test of its own bit. -/
theorem checkV1_of_ms_false {e : Csr} {s : State} {b : EnBit} (hen : e.row.en = some b) (hb : s.ms b = false) :
    checkV1 e s = .illegal := by
  by_cases hv : e = .vsireg
  · subst hv
    cases hen
    simp [checkV1, hb]
  · by_cases hs : e = .sireg
    · subst hs
      cases hen
      simp [checkV1_sireg, siregVirtual, hb]
    · simp [checkV1, hv, hs, hen, State.msOpt, hb]

/-- Below M-mode, an access to a CSR whose effective `mstateen0` bit is zero is an illegal instruction exception
(R313, R314, R318): every step of R350 before the test of the bit gives the same answer. -/
theorem csrCheck_of_ms_false {e : Csr} {s : State} {b : EnBit} (hen : e.row.en = some b) (hb : s.ms b = false)
    (hm : s.mode ≠ .m) (wr : Bool) : csrCheck e wr s = .illegal := by
  unfold csrCheck
  split_ifs with hlevel hu htop hx hro hv
  · rfl
  · rfl
  · have h58 : b = .b58 := by
      rcases htop.2 with rfl | rfl <;> exact (Option.some.inj hen).symm
    subst h58
    exact topeiVirtual_of_ms_false e hb
  · rfl
  · rfl
  · have hhs : s.mode = .hs := by cases hmode : s.mode <;> simp_all [Mode.virt]
    exact checkV0_of_ms_false hen hb hhs
  · exact checkV1_of_ms_false hen hb

/-- With V = 1, past the bit of `mstateen0`, a zero bit of `hstateen0` makes the access a virtual instruction exception
(R323, R324), if nothing before it does. -/
theorem checkV1_of_hs_false {e : Csr} {s : State} {b : EnBit} (hen : e.row.en = some b) (hms : s.ms b = true)
    (hhs : s.hs b = false) : checkV1 e s = .virtual := by
  by_cases hv : e = .vsireg
  · subst hv
    cases hen
    simp [checkV1, hms]
  · by_cases hs : e = .sireg
    · subst hs
      cases hen
      simp [checkV1_sireg, siregVirtual, hms, hhs]
    · simp [checkV1, hv, hs, hen, State.msOpt, State.hsOpt, hms, hhs]

/-- The virtual instruction exception of `checkV1_of_hs_false`, for an access that the steps of R350 let pass. -/
theorem csrCheck_of_hs_false {e : Csr} {wr : Bool} {s : State} {b : EnBit} (hv : s.mode.virt = true)
    (hm : e.row.level ≠ .M) (htop : ¬ (e = .stopei ∨ e = .vstopei)) (hx : csrExists e s = true)
    (hro : e.row.code.readOnly = false) (hen : e.row.en = some b) (hms : s.ms b = true) (hhs : s.hs b = false) :
    csrCheck e wr s = .virtual := by
  rw [csrCheck_of_virt hv hm htop hx hro]
  exact checkV1_of_hs_false hen hms hhs

/-- `siselect` exists wherever S-mode does (R352). -/
theorem csrExists_siselect {s : State} (hs : s.cfg.hasS = true) : csrExists .siselect s = true := by
  simp [csrExists, Csr.row, CsrRow.supervisor, hs]

/-- Settles O40: bit 60 is the bit of the four CSRs. -/
theorem mstateen60ZeroIsIllegal : Obligations.Mstateen60ZeroIsIllegal := by
  intro i s hsm hbit hm hc
  have hb : s.ms .b60 = false := by rw [ms_eq_mstateen0Bit hsm (by decide), hbit]
  have hcsr : ∃ e : Csr, e.number = i.csr ∧ e.row.en = some .b60 := by
    rcases hc with hc | hc | hc | hc <;> rw [hc]
    · exact ⟨.siselect, rfl, rfl⟩
    · exact ⟨.sireg, rfl, rfl⟩
    · exact ⟨.vsiselect, rfl, rfl⟩
    · exact ⟨.vsireg, rfl, rfl⟩
  obtain ⟨e, hnum, hen⟩ := hcsr
  apply exec_of_trap
  rw [← hnum, accessCheck_number]
  exact csrCheck_of_ms_false hen hb hm _

/-- Settles O44: with V = 1 both accesses reach `CheckV1`, where `hstateen0`'s bit 60 answers. -/
theorem hstateen60ZeroIsVirtual : Obligations.Hstateen60ZeroIsVirtual := by
  intro i s hwf hh hsm hbit hhbit hv hc
  have hms : s.ms .b60 = true := by rw [ms_eq_mstateen0Bit hsm (by decide), hbit]
  have hhs : s.hs .b60 = false := by rw [hs_eq_hstateen0Bit hsm hh (by decide), hhbit]
  have hS : s.cfg.hasS = true := hasS_of_hasH hwf hh
  apply exec_of_trap
  rcases hc with hc | hc
  · have hnum : i.csr = Csr.number .siselect := hc
    rw [hnum, accessCheck_number]
    exact csrCheck_of_hs_false hv (by decide) (by decide) (csrExists_siselect hS) rfl rfl hms hhs
  · have hnum : i.csr = Csr.number .sireg := hc
    rw [hnum, accessCheck_number]
    exact csrCheck_of_hs_false hv (by decide) (by decide) (csrExists_sireg hS) rfl rfl hms hhs

/-! ### Bit 59, and the CSRs that no bit controls -/

theorem checkV0_sireg (s : State) :
    checkV0 .sireg s = if s.mode = .hs ∧ !s.ms .b60 then .illegal else siregAccess s := rfl

/-- `sireg` from HS-mode with `siselect` at an interrupt priority needs bit 59 besides its own bit 60 (R314). -/
theorem csrCheck_sireg_prio_of_ms_false {s : State} (hm : s.mode = .hs) (hsel : s.iselS.within 0x30 0x3F)
    (hb : s.ms .b59 = false) (wr : Bool) : csrCheck .sireg wr s = .illegal := by
  have hwin : siregAccess s = .illegal := by simp [siregAccess, (selClass_prio_iff _).2 hsel, hm, hb]
  have hV0 : checkV0 .sireg s = .illegal := by
    rw [checkV0_sireg, hwin]
    exact ite_self _
  unfold csrCheck
  split_ifs with hlevel hu htop hx hro hv
  · rfl
  · rfl
  · simp [hm, Mode.virt] at htop
  · rfl
  · rfl
  · exact hV0
  · simp [hm, Mode.virt] at hv

/-- The only window that no state-enable bit controls is `mireg`. -/
theorem reach_ne_window_of_uncontrolled {e : Csr} (h : e.row.en = none) (he : e ≠ .mireg) (l : Level) :
    e.row.reach ≠ .window l := by
  revert h he
  cases e <;> simp [Csr.row, CsrRow.machine, CsrRow.supervisor, CsrRow.hypervisor]

/-- In the check of an uncontrolled CSR with V = 0 no state-enable bit stands. -/
theorem checkV0_uncontrolled {e : Csr} (h : e.row.en = none) (s : State) :
    checkV0 e s = if e = .mireg then miregAccess s else plainTarget e := by
  by_cases he : e = .mireg
  · subst he
    simp [checkV0, State.msOpt, Csr.row, CsrRow.machine]
  · have hv : e ≠ .vstopei := by rintro rfl; cases h
    have hpass : s.mode = .hs → s.msOpt e.row.en = true := by simp [h, State.msOpt]
    rw [if_neg he, checkV0_plain hpass (reach_ne_window_of_uncontrolled h he) hv]

/-- The state-enable bits do not come into the check of a CSR that none of them controls (R311, R314). -/
theorem csrCheck_uncontrolled {e : Csr} (h : e.row.en = none) (wr : Bool) (s : State) (a b : StateEnable) :
    csrCheck e wr { s with mstateen0 := a, hstateen0 := b } = csrCheck e wr s := by
  have hV0 : checkV0 e { s with mstateen0 := a, hstateen0 := b } = checkV0 e s := by
    rw [checkV0_uncontrolled h, checkV0_uncontrolled h]
    rfl
  have hV1 : checkV1 e { s with mstateen0 := a, hstateen0 := b } = checkV1 e s := by
    have hv : e ≠ .vsireg := by rintro rfl; cases h
    have hs : e ≠ .sireg := by rintro rfl; cases h
    simp [checkV1, hv, hs, h, State.msOpt, State.hsOpt]
  have htop : ¬ (e = .stopei ∨ e = .vstopei) := by rintro (rfl | rfl) <;> cases h
  have hx : csrExists e { s with mstateen0 := a, hstateen0 := b } = csrExists e s := rfl
  simp only [csrCheck, hV0, hV1, hx, htop, and_false, if_false]

/-- The CSRs of the list of R314, in its order. -/
def bit59List : List Csr :=
  [.siph, .sieh, .stopi, .hidelegh, .hvien, .hvienh, .hviph, .hvictl, .hviprio1, .hviprio1h, .hviprio2, .hviprio2h,
   .vsiph, .vsieh, .vstopi]

/-- The six CSRs below machine level that R314 leaves out of its list. -/
def uncontrolledList : List Csr := [.sie, .sip, .hideleg, .hvip, .vsie, .vsip]

theorem en_of_mem_bit59List : ∀ e ∈ bit59List, e.row.en = some .b59 := by decide

theorem en_of_mem_uncontrolledList : ∀ e ∈ uncontrolledList, e.row.en = none := by decide

theorem mem_all (e : Csr) : e ∈ Csr.all := List.mem_of_find?_eq_some (ofNumber_number e)

/-- No state-enable bit controls a machine-level CSR (R311). -/
theorem en_of_machineLevel {e : Csr} (h : e.row.level = .M) : e.row.en = none := by
  have hall : ∀ e ∈ Csr.all, e.row.level = .M → e.row.en = none := by decide
  exact hall e (mem_all e) h

/-- Settles O41: the list is the table's column for bit 59, and an empty entry of that column takes the state-enable
bits out of the check. -/
theorem bit59ControlsItsList : Obligations.Bit59ControlsItsList := by
  constructor
  · intro i s hsm hbit hm hc
    have hb : s.ms .b59 = false := by rw [ms_eq_mstateen0Bit hsm (by decide), hbit]
    apply exec_of_trap
    rcases hc with hmem | ⟨hc, hhs, hsel⟩
    · have hlist : i.csr ∈ bit59List.map Csr.number := hmem
      obtain ⟨e, he, hnum⟩ := List.mem_map.1 hlist
      rw [← hnum, accessCheck_number]
      exact csrCheck_of_ms_false (en_of_mem_bit59List e he) hb hm _
    · have hnum : i.csr = Csr.number .sireg := hc
      rw [hnum, accessCheck_number]
      exact csrCheck_sireg_prio_of_ms_false hhs hsel hb _
  · intro c wr s a b hc
    have hcsr : ∃ e : Csr, e.number = c ∧ e.row.en = none := by
      rcases hc with hmem | ⟨e, hnum, hM⟩
      · have hlist : c ∈ uncontrolledList.map Csr.number := hmem
        obtain ⟨e, he, hnum⟩ := List.mem_map.1 hlist
        exact ⟨e, hnum, en_of_mem_uncontrolledList e he⟩
      · exact ⟨e, hnum, en_of_machineLevel hM⟩
    obtain ⟨e, rfl, hen⟩ := hcsr
    rw [accessCheck_number, accessCheck_number]
    exact csrCheck_uncontrolled hen wr s a b

end Sys2Proof.Machine
end

section
/-! PROOFS. What the access check reads of the state. The bits of `mstateen0` and `hstateen0` come in as effective bits
only (R312), and with V = 1 VGEIN and bit 58 of `hstateen0` only as the guest interrupt file they leave the virtual machine
(R325). So a change that keeps these keeps every answer. -/

namespace Sys2Proof.Machine

/-! ### The guest interrupt file of a virtual machine -/

/-- The guest interrupt file a virtual machine can reach: that of VGEIN, if there is an IMSIC, `hstateen0` lets the virtual
machine at it, and VGEIN is valid (R255, R355). -/
def State.guestFile (s : State) : Option Nat :=
  if s.cfg.hasImsic ∧ s.hs .b58 ∧ s.vgeinValid then some s.vgein else none

/-- An access to the guest interrupt file from VS-mode: `mstateen0[58]` first (R318, decision D8), then the file, if there
is one to reach. -/
def guestFileAccess (s : State) (reach : Nat → Access) : Access :=
  if s.cfg.hasImsic ∧ !s.ms .b58 then .illegal else s.guestFile.elim .virtual reach

/-- The order in which R255 and R355 write the tests of the guest interrupt file. -/
theorem guestFileAccess_eq (s : State) (reach : Nat → Access) :
    guestFileAccess s reach =
      if s.cfg.hasImsic ∧ !s.ms .b58 then .illegal
      else if !s.cfg.hasImsic then .virtual
      else if !s.hs .b58 then .virtual
      else if !s.vgeinValid then .virtual
      else reach s.vgein := by
  unfold guestFileAccess State.guestFile
  cases s.cfg.hasImsic
  · simp
  · cases s.hs .b58 <;> cases s.vgeinValid <;> simp

/-- `sireg` from VS-mode past bit 60, by the class of `vsiselect` (R255). -/
def guestWindowAccess (s : State) : Access :=
  match s.iselVS.selClass with
  | .custom => .refuse (.customSelect .VS)
  | .reserved => reservedOutcome s .VS
  | .prio => .virtual
  | .eint => guestFileAccess s fun file => iregAccess s .VS file s.iselVS.val

theorem siregVirtual_eq (s : State) :
    siregVirtual s =
      if !s.ms .b60 then .illegal
      else if s.mode = .vu then .virtual
      else if !s.hs .b60 then .virtual
      else guestWindowAccess s := by
  cases hc : s.iselVS.selClass <;> simp only [siregVirtual, guestWindowAccess, guestFileAccess_eq, hc]

theorem topeiVirtual_eq (e : Csr) (s : State) :
    topeiVirtual e s =
      if e = .vstopei ∨ s.mode = .vu then (if s.cfg.hasImsic ∧ !s.ms .b58 then .illegal else .virtual)
      else guestFileAccess s fun _ => .ok (.own .vstopei) := by
  rw [guestFileAccess_eq]
  unfold topeiVirtual
  by_cases h : s.cfg.hasImsic ∧ !s.ms .b58
  · simp only [if_pos h, ite_self]
  · simp only [if_neg h]

/-- Where no guest interrupt file can be reached, `sireg` from VS-mode at a select value of the file is a virtual
instruction exception. -/
theorem csrCheck_sireg_of_no_guestFile {s : State} (hm : s.mode = .vs) (hS : s.cfg.hasS = true)
    (hsel : s.iselVS.within 0x70 0xFF) (hms : s.ms .b60 = true) (hhs : s.hs .b60 = true) (h58 : s.ms .b58 = true)
    (hfile : s.guestFile = none) (wr : Bool) : csrCheck .sireg wr s = .virtual := by
  have hv : s.mode.virt = true := by rw [hm]; rfl
  have hwin : guestWindowAccess s = .virtual := by
    simp [guestWindowAccess, (selClass_eint_iff _).2 hsel, guestFileAccess, h58, hfile]
  rw [csrCheck_of_virt hv (by decide) (by decide) (csrExists_sireg hS) rfl, checkV1_sireg, siregVirtual_eq]
  simp [hms, hm, hhs, hwin]

/-- Where no guest interrupt file can be reached, `stopei` from VS-mode is a virtual instruction exception. -/
theorem csrCheck_stopei_of_no_guestFile {s : State} (hm : s.mode = .vs) (h58 : s.ms .b58 = true)
    (hfile : s.guestFile = none) (wr : Bool) : csrCheck .stopei wr s = .virtual := by
  have htop : topeiVirtual .stopei s = .virtual := by
    simp [topeiVirtual_eq, hm, guestFileAccess, h58, hfile]
  simp [csrCheck, Csr.row, CsrRow.supervisor, hm, Mode.virt, htop]

/-- The two ways from VS-mode to the guest interrupt file, where there is none to reach. -/
theorem exec_virtual_of_no_guestFile {i : Instr} {s : State} (hm : s.mode = .vs) (hS : s.cfg.hasS = true)
    (h58 : s.ms .b58 = true) (hfile : s.guestFile = none)
    (hc : (i.csr = Csr.number .sireg ∧ s.iselVS.within 0x70 0xFF ∧ s.ms .b60 = true ∧ s.hs .b60 = true) ∨
      i.csr = Csr.number .stopei) :
    exec i s = .fault .virtualInstruction := by
  apply exec_of_trap
  rcases hc with ⟨hnum, hsel, hms, hhs⟩ | hnum
  · rw [hnum, accessCheck_number]
    exact csrCheck_sireg_of_no_guestFile hm hS hsel hms hhs h58 hfile _
  · rw [hnum, accessCheck_number]
    exact csrCheck_stopei_of_no_guestFile hm h58 hfile _

/-! ### States with the same accesses -/

/-- What the access check reads is the same in both states. -/
structure SameAccess (s s' : State) : Prop where
  cfg : s'.cfg = s.cfg
  mode : s'.mode = s.mode
  iselM : s'.iselM = s.iselM
  iselS : s'.iselS = s.iselS
  iselVS : s'.iselVS = s.iselVS
  ms : ∀ b, s'.ms b = s.ms b
  vgein : s.mode.virt = false → s'.vgein = s.vgein
  hs : s.mode.virt = true → ∀ b, b ≠ .b58 → s'.hs b = s.hs b
  guestFile : s.mode.virt = true → s'.guestFile = s.guestFile

namespace SameAccess

variable {s s' : State} (h : SameAccess s s')
include h

theorem xlen : s'.xlen = s.xlen := by
  rw [State.xlen, State.xlen, h.cfg, h.mode]

theorem msOpt (b : Option EnBit) : s'.msOpt b = s.msOpt b := by
  cases b with
  | none => rfl
  | some b => exact h.ms b

theorem csrExists (e : Csr) : csrExists e s' = csrExists e s := by
  simp only [Machine.csrExists, h.cfg, h.xlen]

theorem reservedOutcome (l : Level) : reservedOutcome s' l = reservedOutcome s l := by
  simp only [Machine.reservedOutcome, h.cfg]

theorem iregAccess (l : Level) (file n : Nat) : iregAccess s' l file n = iregAccess s l file n := by
  simp only [Machine.iregAccess, h.cfg, h.xlen]

theorem miregAccess : miregAccess s' = miregAccess s := by
  simp only [Machine.miregAccess, h.iselM, h.cfg, h.reservedOutcome, h.iregAccess]

theorem siregAccess : siregAccess s' = siregAccess s := by
  simp only [Machine.siregAccess, h.iselS, h.cfg, h.mode, h.ms, h.reservedOutcome, h.iregAccess]

section V0
variable (hv : s.mode.virt = false)
include hv

theorem vgeinValid : s'.vgeinValid = s.vgeinValid := by
  simp only [State.vgeinValid, h.cfg, h.vgein hv]

theorem vsiregDirect : vsiregDirect s' = vsiregDirect s := by
  simp only [Machine.vsiregDirect, State.vsClass, h.iselVS, h.vgeinValid hv, h.vgein hv, h.mode, h.ms, h.reservedOutcome,
    h.iregAccess]

theorem checkV0 (e : Csr) : checkV0 e s' = checkV0 e s := by
  simp only [Machine.checkV0, h.mode, h.msOpt, h.miregAccess, h.siregAccess, h.vsiregDirect hv, h.vgeinValid hv]

end V0

section V1
variable (hv : s.mode.virt = true)
include hv

theorem guestFileAccess (reach : Nat → Access) : guestFileAccess s' reach = guestFileAccess s reach := by
  simp only [Machine.guestFileAccess, h.cfg, h.ms, h.guestFile hv]

theorem siregVirtual : siregVirtual s' = siregVirtual s := by
  simp only [siregVirtual_eq, guestWindowAccess, h.iselVS, h.mode, h.ms, h.hs hv .b60 (by decide), h.reservedOutcome,
    h.iregAccess, h.guestFileAccess hv]

theorem topeiVirtual (e : Csr) : topeiVirtual e s' = topeiVirtual e s := by
  simp only [topeiVirtual_eq, h.cfg, h.mode, h.ms, h.guestFileAccess hv]

/-- Bit 58 of `hstateen0` is the bit of `stopei` and `vstopei` alone, which do not come to `CheckV1`. -/
theorem hsOpt {e : Csr} (he : ¬ (e = .stopei ∨ e = .vstopei)) : s'.hsOpt e.row.en = s.hsOpt e.row.en := by
  have hen : e.row.en ≠ some .b58 := by
    have hall : ∀ e ∈ Csr.all, ¬ (e = .stopei ∨ e = .vstopei) → e.row.en ≠ some .b58 := by decide
    exact hall e (mem_all e) he
  cases hb : e.row.en with
  | none => rfl
  | some b => exact h.hs hv b (by rintro rfl; exact hen hb)

theorem checkV1 {e : Csr} (he : ¬ (e = .stopei ∨ e = .vstopei)) : checkV1 e s' = checkV1 e s := by
  simp only [Machine.checkV1, h.mode, h.ms, h.msOpt, h.hsOpt hv he, h.siregVirtual hv]

end V1

theorem csrCheck (e : Csr) (wr : Bool) : csrCheck e wr s' = csrCheck e wr s := by
  cases hv : s.mode.virt with
  | false => simp only [Machine.csrCheck, h.mode, hv, h.csrExists, h.checkV0 hv, Bool.false_eq_true, false_and, if_false,
      Bool.not_false, if_true]
  | true =>
    by_cases he : e = .stopei ∨ e = .vstopei
    · simp only [Machine.csrCheck, h.mode, hv, he, h.topeiVirtual hv, and_self, if_true]
    · simp only [Machine.csrCheck, h.mode, hv, h.csrExists, h.checkV1 hv he, he, and_false, if_false,
        Bool.not_true, Bool.false_eq_true]

theorem aliasCheck (l : Level) (c : CsrNum) : aliasCheck l c s' = aliasCheck l c s := by
  have hhs : s.mode = .vs → s'.hs .b60 = s.hs .b60 := fun hm => h.hs (by rw [hm]; rfl) .b60 (by decide)
  cases hm : s.mode <;> cases l <;>
    simp only [Machine.aliasCheck, h.cfg, h.mode, h.iselM, h.iselS, h.iselVS, h.ms, hm, hhs]

/-- The access check answers the same in both states. -/
theorem accessCheck (c : CsrNum) (wr : Bool) : accessCheck c wr s' = accessCheck c wr s := by
  simp only [Machine.accessCheck, h.aliasCheck, h.csrCheck]

end SameAccess

/-! ### Changes that keep every access -/

/-- Without an IMSIC the stored bit 58 of `mstateen0` has no effect (R320). -/
theorem sameAccess_mstateen0_bit58 {s : State} (hi : s.cfg.hasImsic = false) (b : Bool) :
    SameAccess s { s with mstateen0 := { s.mstateen0 with bit58 := b } } where
  cfg := rfl
  mode := rfl
  iselM := rfl
  iselS := rfl
  iselVS := rfl
  ms
    | .b60 => rfl
    | .b59 => rfl
    | .b58 => by rw [ms_b58_of_not_imsic hi]; exact ms_b58_of_not_imsic hi
  vgein := fun _ => rfl
  hs := fun _ _ _ => rfl
  guestFile := fun _ => rfl

/-- With V = 0 `hstateen0` has no effect (R241). -/
theorem sameAccess_hstateen0 {s : State} (hv : s.mode.virt = false) (b : StateEnable) :
    SameAccess s { s with hstateen0 := b } where
  cfg := rfl
  mode := rfl
  iselM := rfl
  iselS := rfl
  iselVS := rfl
  ms := fun _ => rfl
  vgein := fun _ => rfl
  hs := fun h => by rw [hv] at h; cases h
  guestFile := fun h => by rw [hv] at h; cases h

/-- To a virtual machine that can reach no guest interrupt file, VGEIN and bit 58 of `hstateen0` are all one, as long as
they leave it none. -/
theorem sameAccess_of_no_guestFile {s : State} (hv : s.mode.virt = true) (hfile : s.guestFile = none) (n : Nat) (b : Bool)
    (hfile' : State.guestFile { s with vgein := n, hstateen0 := { s.hstateen0 with bit58 := b } } = none) :
    SameAccess s { s with vgein := n, hstateen0 := { s.hstateen0 with bit58 := b } } where
  cfg := rfl
  mode := rfl
  iselM := rfl
  iselS := rfl
  iselVS := rfl
  ms := fun _ => rfl
  vgein := fun h => by rw [hv] at h; cases h
  hs := fun _ b hb => by
    cases b with
    | b60 => rfl
    | b59 => rfl
    | b58 => exact absurd rfl hb
  guestFile := fun _ => by rw [hfile, hfile']

/-! ### When there is no guest interrupt file to reach -/

theorem guestFile_of_no_imsic {s : State} (h : s.cfg.hasImsic = false) : s.guestFile = none := by
  simp [State.guestFile, h]

theorem guestFile_of_vgein_zero {s : State} (h : s.vgein = 0) : s.guestFile = none := by
  simp [State.guestFile, State.vgeinValid, h]

theorem guestFile_of_hstateen0Bit_false {s : State} (hsm : s.cfg.hasSmstateen = true) (hh : s.cfg.hasH = true)
    (h : s.hstateen0Bit .b58 = false) : s.guestFile = none := by
  cases hi : s.cfg.hasImsic with
  | false => exact guestFile_of_no_imsic hi
  | true => simp [State.guestFile, State.hs, hsm, hh, hi, h]

/-- Settles O46: without an IMSIC bit 58 is in effect whatever is stored, and no guest interrupt file can be reached. -/
theorem noImsicGivesVirtual : Obligations.NoImsicGivesVirtual := by
  intro s hwf hi
  have h58 : s.ms .b58 = true := ms_b58_of_not_imsic hi
  have hfile : s.guestFile = none := guestFile_of_no_imsic hi
  refine ⟨?_, h58, ?_, ?_⟩
  · simp [State.mstateen0Bit, hi]
  · intro i hh hm hc
    exact exec_virtual_of_no_guestFile hm (hasS_of_hasH hwf hh) h58 hfile hc
  · exact fun c wr b => (sameAccess_mstateen0_bit58 hi b).accessCheck c wr

/-- Settles O47: bit 58 of `hstateen0` zero and VGEIN = 0 both leave the virtual machine no guest interrupt file, and
nothing else it can reach depends on them. -/
theorem hstateen58ZeroIsLikeVgeinZero : Obligations.Hstateen58ZeroIsLikeVgeinZero := by
  intro c wr s hsm hh hbit
  have hfile : s.guestFile = none := guestFile_of_hstateen0Bit_false hsm hh hbit
  refine ⟨fun hv => ⟨?_, ?_⟩, fun hv => ?_, ?_⟩
  · exact ((sameAccess_of_no_guestFile hv hfile 0 s.hstateen0.bit58 (guestFile_of_vgein_zero rfl)).accessCheck c wr).symm
  · exact ((sameAccess_of_no_guestFile hv hfile 0 true (guestFile_of_vgein_zero rfl)).accessCheck c wr).symm
  · exact (sameAccess_hstateen0 hv _).accessCheck c wr
  · intro i hm hS h58 hc
    exact exec_virtual_of_no_guestFile hm hS h58 hfile
      (hc.imp_left fun ⟨hnum, hms, hhs, hsel⟩ => ⟨hnum, hsel, hms, hhs⟩)

end Sys2Proof.Machine
end

section
/-! PROOFS. The decoder and the encoder (30_encoding.md R120 to R124): they are inverse to each other, and the fixed bits
of the opcode table's rows decide which instruction a word is. -/

namespace Sys2Proof

/-! ### Round trips -/

/-- The decoder finds the fields the encoder put in. -/
theorem decodeWord_encodeWord (i : Instr) : decodeWord (encodeWord i) = .ok i := by
  cases i <;> simp [encodeWord, decodeWord]

/-- Settles O1: the bytes of a word put back together are the word, and decoding it finds the instruction. -/
theorem decodeOfEncode : Obligations.DecodeOfEncode := by
  intro i rest
  refine ⟨rfl, ?_⟩
  rw [encode, decode_bytesOfWord, decodeWord_encodeWord]

/-- A word with the major opcode SYSTEM and a given `funct3` is put together from its other three fields. -/
theorem encodeFields_of_funct3 {w : BitVec 32} {f : BitVec 3} (hop : w.extractLsb' 0 7 = opcodeSystem)
    (hf : fieldFunct3 w = f) : encodeFields (fieldCsr w) (fieldUimm w) f (fieldRd w) = w := by
  rw [← hf]
  exact encodeFields_fields w hop

/-- Settles O2: an accepted word has the opcode and the `funct3` of the row, and its other fields are the operands. -/
theorem encodeOfDecode : Obligations.EncodeOfDecode := by
  intro w i h
  unfold decodeWord at h
  split_ifs at h with hop h1 h2 h3 h5 h6 h7 h0 <;> cases h
  exacts [encodeFields_of_funct3 hop h1, encodeFields_of_funct3 hop h2, encodeFields_of_funct3 hop h3,
    encodeFields_of_funct3 hop h5, encodeFields_of_funct3 hop h6, encodeFields_of_funct3 hop h7]

/-! ### Masks and match values -/

/-- The mask of the major opcode keeps bits 6:0 and no others. -/
theorem and_opcodeMask (w : BitVec 32) : w &&& 0x7F#32 = (w.extractLsb' 0 7).setWidth 32 := by
  ext i hi
  interval_cases i <;> simp

/-- The mask of the six rows keeps bits 6:0. -/
theorem opcode_and_rowMask (w : BitVec 32) : (w &&& 0x707F#32).extractLsb' 0 7 = w.extractLsb' 0 7 := by
  ext i hi
  interval_cases i <;> simp

/-- The mask of the six rows keeps bits 14:12. -/
theorem funct3_and_rowMask (w : BitVec 32) : fieldFunct3 (w &&& 0x707F#32) = fieldFunct3 w := by
  unfold fieldFunct3
  ext i hi
  interval_cases i <;> simp

/-- The bits of a word under the mask of the six rows fix its opcode and its `funct3`. -/
theorem opcode_funct3_of_masked {w v : BitVec 32} (h : w &&& 0x707F#32 = v) :
    w.extractLsb' 0 7 = v.extractLsb' 0 7 ∧ fieldFunct3 w = fieldFunct3 v := by
  subst h
  exact ⟨(opcode_and_rowMask w).symm, (funct3_and_rowMask w).symm⟩

/-- The word with major opcode SYSTEM, a given `funct3` and zero elsewhere. -/
def rowWord (f : BitVec 3) : BitVec 32 := encodeFields 0 0 f 0

theorem masked_eq_rowWord {w : BitVec 32} {f : BitVec 3} (h : w &&& 0x707F#32 = rowWord f) :
    w.extractLsb' 0 7 = opcodeSystem ∧ fieldFunct3 w = f := by
  simpa [rowWord] using opcode_funct3_of_masked h

/-- An encoded word has the bits of its row under the mask (R123). -/
theorem masked_of_decodeWord {w : BitVec 32} {i : Instr} (h : decodeWord w = .ok i) :
    w &&& 0x707F#32 = Laws.EncodeMatches.matchWord i := by
  rw [← encodeOfDecode w i h]
  cases i with
  | csrrw rd c rs1 => exact Laws.EncodeMatches.csrrw rd c rs1
  | csrrs rd c rs1 => exact Laws.EncodeMatches.csrrs rd c rs1
  | csrrc rd c rs1 => exact Laws.EncodeMatches.csrrc rd c rs1
  | csrrwi rd c uimm => exact Laws.EncodeMatches.csrrwi rd c uimm
  | csrrsi rd c uimm => exact Laws.EncodeMatches.csrrsi rd c uimm
  | csrrci rd c uimm => exact Laws.EncodeMatches.csrrci rd c uimm

/-! ### Fields by division -/

theorem fieldRd_eq_ofNat (w : BitVec 32) : fieldRd w = Fin.ofNat 32 (w.toNat / 2 ^ 7) := by
  apply Fin.ext
  simp [fieldRd, Nat.shiftRight_eq_div_pow]

theorem fieldRs1_eq_ofNat (w : BitVec 32) : fieldRs1 w = Fin.ofNat 32 (w.toNat / 2 ^ 15) := by
  apply Fin.ext
  simp [fieldRs1, Nat.shiftRight_eq_div_pow]

theorem fieldUimm_eq_ofNat (w : BitVec 32) : fieldUimm w = BitVec.ofNat 5 (w.toNat / 2 ^ 15) := by
  apply BitVec.eq_of_toNat_eq
  simp [fieldUimm, Nat.shiftRight_eq_div_pow]

theorem fieldCsr_eq_ofNat (w : BitVec 32) : fieldCsr w = BitVec.ofNat 12 (w.toNat / 2 ^ 20) := by
  apply BitVec.eq_of_toNat_eq
  simp [fieldCsr, Nat.shiftRight_eq_div_pow]

/-- The `funct3` of an instruction's row (R123). -/
def rowFunct3 : Instr → BitVec 3
  | .csrrw _ _ _ => 0b001#3
  | .csrrs _ _ _ => 0b010#3
  | .csrrc _ _ _ => 0b011#3
  | .csrrwi _ _ _ => 0b101#3
  | .csrrsi _ _ _ => 0b110#3
  | .csrrci _ _ _ => 0b111#3

/-- A row's match value is the SYSTEM word with the row's `funct3`. -/
theorem matchWord_eq_rowWord (i : Instr) : Laws.EncodeMatches.matchWord i = rowWord (rowFunct3 i) := by
  cases i <;> simp only [Laws.EncodeMatches.matchWord, rowFunct3] <;> decide

/-- A word is an instruction exactly when it has the match value of the instruction's row, if that is what the decoder
answers for the row's opcode and `funct3`. -/
theorem masked_iff_decodeWord {w : BitVec 32} (i : Instr)
    (hdec : w.extractLsb' 0 7 = opcodeSystem → fieldFunct3 w = rowFunct3 i → decodeWord w = .ok i) :
    w &&& 0x707F#32 = Laws.EncodeMatches.matchWord i ↔ decodeWord w = .ok i := by
  refine ⟨fun h => ?_, masked_of_decodeWord⟩
  obtain ⟨hop, hf⟩ := masked_eq_rowWord (h.trans (matchWord_eq_rowWord i))
  exact hdec hop hf

/-- Settles O3: a row's match value gives the word's opcode and `funct3`, for which the decoder answers with the row's
instruction; an accepted word is the encoder's, which has the match value. -/
theorem decodeFollowsTheTable : Obligations.DecodeFollowsTheTable := by
  intro w
  simp only [← fieldRd_eq_ofNat, ← fieldRs1_eq_ofNat, ← fieldUimm_eq_ofNat, ← fieldCsr_eq_ofNat]
  refine ⟨masked_iff_decodeWord (.csrrw _ _ _) fun hop hf => ?_, masked_iff_decodeWord (.csrrs _ _ _) fun hop hf => ?_,
    masked_iff_decodeWord (.csrrc _ _ _) fun hop hf => ?_, masked_iff_decodeWord (.csrrwi _ _ _) fun hop hf => ?_,
    masked_iff_decodeWord (.csrrsi _ _ _) fun hop hf => ?_, masked_iff_decodeWord (.csrrci _ _ _) fun hop hf => ?_⟩
  all_goals simp [decodeWord, hop, hf, rowFunct3]

/-- Settles O4: the masks fix the tests that the decoder makes. -/
theorem decodeRefusesOtherWords : Obligations.DecodeRefusesOtherWords := by
  intro w
  refine ⟨fun h => ?_, fun h => ?_, fun h => ?_⟩
  · have hop : w.extractLsb' 0 7 ≠ opcodeSystem := fun hop => h (by rw [and_opcodeMask, hop]; rfl)
    simp [decodeWord, hop]
  · obtain ⟨hop, hf⟩ := masked_eq_rowWord (f := 0b000#3) h
    simp [decodeWord, hop, hf]
  · obtain ⟨hop, hf⟩ := masked_eq_rowWord (f := 0b100#3) h
    simp [decodeWord, hop, hf]

/-- Settles O5: the words are evaluated. -/
theorem specWordsDecode : Obligations.SpecWordsDecode := by
  refine ⟨?_, ?_, ?_, ?_, ?_, ?_⟩ <;> rfl

end Sys2Proof
end

section
/-! PROOFS. The step, and the six instructions where the access check lets them through (40_csr_instructions.md R140 to
R149): one equation for the forms that write the CSR, one for those that do not. -/

namespace Sys2Proof.Machine

/-! ### The step -/

theorem fetch_eq_error_misaligned {s : State} (h : s.fetchAddr % 4 ≠ 0) : fetch s = .error .misalignedPc := by
  simp [fetch, h]

theorem fetch_eq_error_outside {s : State} (h : s.fetchAddr % 4 = 0) (hm : s.mem.readBytes s.fetchAddr 4 = none) :
    fetch s = .error .pcOutsideProgram := by
  simp [fetch, h, hm]

theorem fetch_eq_ok {s : State} {bs : List Byte} (h : s.fetchAddr % 4 = 0)
    (hm : s.mem.readBytes s.fetchAddr 4 = some bs) : fetch s = .ok bs := by
  simp [fetch, h, hm]

theorem step_of_fetch_error {s : State} {r : Refusal} (h : fetch s = .error r) : step s = .refused r := by
  simp only [step, h]

/-- Settles O6: the fetch succeeds, and the step is what follows it. -/
theorem stepRunsDecodedInstruction : Obligations.StepRunsDecodedInstruction := by
  intro s bs rest i halign hmem hdec
  simp only [step, fetch_eq_ok halign hmem, hdec]

/-- Settles O7: the first two are refused by the fetch, the third by the decoder. -/
theorem stepRefusesWithoutInstruction : Obligations.StepRefusesWithoutInstruction := by
  intro s
  refine ⟨fun h => step_of_fetch_error (fetch_eq_error_misaligned h), fun h => ⟨fun hm => ?_, fun bs why hm hd => ?_⟩⟩
  · exact step_of_fetch_error (fetch_eq_error_outside h hm)
  · simp only [step, fetch_eq_ok h hm, hd]

/-! ### Completing instructions -/

/-- Without the old value the new one is the same: a form that does not read replaces the whole CSR (R140). -/
theorem combineOf_old (i : Instr) (old v : Word) :
    combineOf i (if (use i).reads then old else 0) v = combineOf i old v := by
  cases i <;> rfl

/-- A form that does not read has `rd = x0`, where no value arrives (R140). -/
theorem complete_old (i : Instr) (s : State) (old : Word) :
    s.complete i.rd (if (use i).reads then old else 0) = s.complete i.rd old := by
  by_cases h : i.rd = 0
  · simp [State.complete, h]
  · simp [use_reads_of_rd h]

/-- A form that writes: the CSR gets the combined value, `x[rd]` the old one (R149). -/
theorem resultState_of_writes {i : Instr} (h : (use i).writes = true) (t : Target) (s : State) :
    resultState i t s = (csrWrite t s (combineOf i (csrRead t s) (operandOf i s))).complete i.rd (csrRead t s) := by
  simp only [resultState, h, if_true, combineOf_old, complete_old]

/-- A form that does not write: `x[rd]` gets the value read (R149). -/
theorem resultState_of_not_writes {i : Instr} (h : (use i).writes = false) (t : Target) (s : State) :
    resultState i t s = s.complete i.rd (csrRead t s) := by
  simp only [resultState, h, Bool.false_eq_true, if_false, complete_old]

theorem exec_of_ok_writes {i : Instr} {s : State} {t : Target} (hw : (use i).writes = true)
    (h : accessCheck i.csr true s = .ok t) :
    exec i s = .next ((csrWrite t s (combineOf i (csrRead t s) (operandOf i s))).complete i.rd (csrRead t s)) := by
  rw [← hw] at h
  rw [exec_of_ok h, resultState_of_writes hw]

theorem exec_of_ok_not_writes {i : Instr} {s : State} {t : Target} (hw : (use i).writes = false)
    (h : accessCheck i.csr false s = .ok t) : exec i s = .next (s.complete i.rd (csrRead t s)) := by
  rw [← hw] at h
  rw [exec_of_ok h, resultState_of_not_writes hw]

theorem writes_maskReg {rs1 : Reg} (h : rs1 ≠ 0) : (Use.maskReg rs1).writes = true := by
  simp [Use.maskReg, h]

theorem writes_maskImm {uimm : BitVec 5} (h : uimm ≠ 0#5) : (Use.maskImm uimm).writes = true := by
  simp [Use.maskImm, h]

/-- The immediate operand as a number (R121). -/
theorem immOperand_eq_ofNat (uimm : BitVec 5) : immOperand uimm = BitVec.ofNat 64 uimm.toNat := by
  apply BitVec.eq_of_toNat_eq
  simp [immOperand]

/-- Settles O13, by the equation of the forms that write: R140 makes `csrrw` one, whatever `rd` is. -/
theorem csrrwCompletes : Obligations.CsrrwCompletes :=
  fun rd rs1 c _ _ h => exec_of_ok_writes (i := .csrrw rd c rs1) rfl h

/-- Settles O14, by both equations: `csrrs` writes exactly when `rs1` is not `x0`. -/
theorem csrrsCompletes : Obligations.CsrrsCompletes :=
  fun rd rs1 c _ _ => ⟨exec_of_ok_not_writes (i := .csrrs rd c 0) rfl,
    fun h => exec_of_ok_writes (i := .csrrs rd c rs1) (writes_maskReg h)⟩

/-- Settles O15, by both equations: `csrrc` writes exactly when `rs1` is not `x0`. -/
theorem csrrcCompletes : Obligations.CsrrcCompletes :=
  fun rd rs1 c _ _ => ⟨exec_of_ok_not_writes (i := .csrrc rd c 0) rfl,
    fun h => exec_of_ok_writes (i := .csrrc rd c rs1) (writes_maskReg h)⟩

/-- Settles O16, by the equation of the forms that write, at the immediate operand. -/
theorem csrrwiCompletes : Obligations.CsrrwiCompletes := by
  intro rd uimm c s t h
  rw [← immOperand_eq_ofNat]
  exact exec_of_ok_writes (i := .csrrwi rd c uimm) rfl h

/-- Settles O17, by both equations: `csrrsi` writes exactly when `uimm` is not 0. -/
theorem csrrsiCompletes : Obligations.CsrrsiCompletes := by
  intro rd uimm c s t
  rw [← immOperand_eq_ofNat]
  exact ⟨exec_of_ok_not_writes (i := .csrrsi rd c 0#5) rfl,
    fun h => exec_of_ok_writes (i := .csrrsi rd c uimm) (writes_maskImm h)⟩

/-- Settles O18, by both equations: `csrrci` writes exactly when `uimm` is not 0. -/
theorem csrrciCompletes : Obligations.CsrrciCompletes := by
  intro rd uimm c s t
  rw [← immOperand_eq_ofNat]
  exact ⟨exec_of_ok_not_writes (i := .csrrci rd c 0#5) rfl,
    fun h => exec_of_ok_writes (i := .csrrci rd c uimm) (writes_maskImm h)⟩

end Sys2Proof.Machine
end

section
/-! PROOFS. Writes under `PlainStorage` (00_scope.md R8): one stored word changes, the one the target names. -/

namespace Sys2Proof.Machine

/-- What `PlainStorage` makes of the interrupt registers when the target's word is set to `w`. -/
def Target.store (t : Target) (vgein : Nat) (i : Intr) (w : Word) : Intr :=
  match t with
  | .sel _ => i
  | .full r => i.set64 r w
  | .high r => i.set64 r w
  | .own r => i.setW vgein r w
  | .top _ => i
  | .ireg l file n => i.setIreg l file n w

theorem wr64_plain {s : State} {wmask : Vector Word 14} (hp : s.cfg.intrLogic = .plainStorage wmask) (r : Reg64)
    (v : Word) : wr64 r s v = s.withIntr (s.intr.set64 r (v &&& wmask[r.idx])) := by
  simp only [wr64, hp]

theorem wrW_plain {s : State} {wmask : Vector Word 14} (hp : s.cfg.intrLogic = .plainStorage wmask) (r : RegW)
    (v : Word) : wrW r s v = s.withIntr (s.intr.setW s.vgein r v) := by
  simp only [wrW, hp]

theorem iregWr_plain {s : State} {wmask : Vector Word 14} (hp : s.cfg.intrLogic = .plainStorage wmask) (l : Level)
    (file n : Nat) (x : Xlen) (v : Word) : iregWr l file n x s v = s.withIntr (s.intr.setIreg l file n (fit x v)) := by
  simp only [iregWr, hp]

/-- Under `PlainStorage` a CSR write is the store of one word. -/
theorem csrWrite_intr_plain {s : State} {wmask : Vector Word 14} (hp : s.cfg.intrLogic = .plainStorage wmask)
    (t : Target) (v : Word) : ∃ w, (csrWrite t s v).intr = t.store s.vgein s.intr w := by
  cases t with
  | sel l => exact ⟨0, by simp [Target.store]⟩
  | full r => exact ⟨_, by simp only [csrWrite, wr64_plain hp]; rfl⟩
  | high r => exact ⟨_, by simp only [csrWrite, wr64_plain hp]; rfl⟩
  | own r => exact ⟨_, by simp only [csrWrite, wrW_plain hp]; rfl⟩
  | top l => exact ⟨0, rfl⟩
  | ireg l file n => exact ⟨_, by simp only [csrWrite, iregWr_plain hp]; rfl⟩

/-- Under `PlainStorage` a completing instruction leaves the interrupt registers alone or stores one word. -/
theorem resultState_intr_plain {s : State} {wmask : Vector Word 14} (hp : s.cfg.intrLogic = .plainStorage wmask)
    (i : Instr) (t : Target) :
    (resultState i t s).intr = s.intr ∨ ∃ w, (resultState i t s).intr = t.store s.vgein s.intr w := by
  rw [resultState_intr]
  split
  · exact .inr (csrWrite_intr_plain hp t _)
  · exact .inl rfl

/-! ### What a store leaves unchanged -/

/-- The number under which a register space keeps an indirect register: the machine-level and supervisor-level spaces
have no files (10_state.md R72 to R74). -/
def iregKey (l : Level) (file n : Nat) : Nat :=
  match l with
  | .M => n
  | .S => n
  | .VS => vsKey file n

theorem getIreg_setIreg_of_ne (i : Intr) {l l' : Level} {file n file' n' : Nat} (w : Word)
    (h : l' = l → iregKey l' file' n' ≠ iregKey l file n) :
    (i.setIreg l file n w).getIreg l' file' n' = i.getIreg l' file' n' := by
  cases l <;> cases l' <;> first | rfl | exact RegMap.get_set_of_ne _ (h rfl) _

theorem getW_setW_of_ne (i : Intr) {r r' : RegW} {file file' : Nat} (w : Word)
    (h : r' = r → r = .vstopei ∧ file' ≠ file) : (i.setW file r w).getW file' r' = i.getW file' r' := by
  cases r <;> cases r' <;> first | rfl | exact RegMap.get_set_of_ne _ (h rfl).2 _ | exact absurd (h rfl).1 (by decide)

theorem store_get64 (t : Target) (vgein : Nat) (i : Intr) (w : Word) {r : Reg64} (hf : t ≠ .full r) (hh : t ≠ .high r) :
    (t.store vgein i w).get64 r = i.get64 r := by
  cases t with
  | full q => exact get64_set64_of_ne i (fun e => hf (by rw [e])) w
  | high q => exact get64_set64_of_ne i (fun e => hh (by rw [e])) w
  | own q => cases q <;> rfl
  | ireg l file n => cases l <;> rfl
  | sel l => rfl
  | top l => rfl

theorem store_getW (t : Target) (vgein : Nat) (i : Intr) (w : Word) {r : RegW} {file : Nat}
    (h : t = .own r → r = .vstopei ∧ file ≠ vgein) : (t.store vgein i w).getW file r = i.getW file r := by
  cases t with
  | own q => exact getW_setW_of_ne i w fun e => by subst e; exact h rfl
  | full q => cases r <;> rfl
  | high q => cases r <;> rfl
  | ireg l file n => cases l <;> cases r <;> rfl
  | sel l => rfl
  | top l => rfl

theorem store_getIreg (t : Target) (vgein : Nat) (i : Intr) (w : Word) {l : Level} {file n : Nat}
    (h : ∀ file' n', t = .ireg l file' n' → iregKey l file n ≠ iregKey l file' n') :
    (t.store vgein i w).getIreg l file n = i.getIreg l file n := by
  cases t with
  | ireg l' file' n' => exact getIreg_setIreg_of_ne i w fun e => by subst e; exact h file' n' rfl
  | own q => cases q <;> cases l <;> rfl
  | full q => cases l <;> rfl
  | high q => cases l <;> rfl
  | sel l => rfl
  | top l => rfl

theorem store_hgei (t : Target) (vgein : Nat) (i : Intr) (w : Word) :
    (t.store vgein i w).hgeip = i.hgeip ∧ (t.store vgein i w).hgeie = i.hgeie := by
  cases t with
  | own q => cases q <;> exact ⟨rfl, rfl⟩
  | ireg l file n => cases l <;> exact ⟨rfl, rfl⟩
  | full q => exact ⟨rfl, rfl⟩
  | high q => exact ⟨rfl, rfl⟩
  | sel l => exact ⟨rfl, rfl⟩
  | top l => exact ⟨rfl, rfl⟩

/-- The register maps are in canonical form. -/
def Intr.canonical (i : Intr) : Prop :=
  RegMap.wf i.vstopei = true ∧ RegMap.wf i.iregM = true ∧ RegMap.wf i.iregS = true ∧ RegMap.wf i.iregVS = true

/-- A store keeps the canonical form. -/
theorem store_canonical (t : Target) (vgein : Nat) {i : Intr} (w : Word) (h : i.canonical) :
    (t.store vgein i w).canonical := by
  obtain ⟨ht, hM, hS, hVS⟩ := h
  cases t with
  | own q =>
    cases q with
    | vstopei => exact ⟨RegMap.wf_set _ _ _ ht, hM, hS, hVS⟩
    | mtopei => exact ⟨ht, hM, hS, hVS⟩
    | stopei => exact ⟨ht, hM, hS, hVS⟩
    | hvictl => exact ⟨ht, hM, hS, hVS⟩
  | ireg l file n =>
    cases l with
    | M => exact ⟨ht, RegMap.wf_set _ _ _ hM, hS, hVS⟩
    | S => exact ⟨ht, hM, RegMap.wf_set _ _ _ hS, hVS⟩
    | VS => exact ⟨ht, hM, hS, RegMap.wf_set _ _ _ hVS⟩
  | full q => exact ⟨ht, hM, hS, hVS⟩
  | high q => exact ⟨ht, hM, hS, hVS⟩
  | sel l => exact ⟨ht, hM, hS, hVS⟩
  | top l => exact ⟨ht, hM, hS, hVS⟩

end Sys2Proof.Machine
end

section
/-! PROOFS. Legal states (10_state.md R95): each part of a legal state is kept by every completing instruction. -/

namespace Sys2Proof.Machine

theorem wf_iff (s : State) :
    s.wf = true ↔
      s.cfg.wf = true ∧ s.mode.available s.cfg = true ∧ s.x[(0 : Reg)] = 0 ∧ s.pcLegal = true ∧
      (∀ l, s.iselLegal l = true) ∧ s.enableLegal = true ∧ s.mem.wf = true ∧ s.intrLegal = true := by
  have hall : (∀ l, s.iselLegal l = true) ↔
      s.iselLegal .M = true ∧ s.iselLegal .S = true ∧ s.iselLegal .VS = true :=
    ⟨fun h => ⟨h _, h _, h _⟩, fun ⟨hM, hS, hVS⟩ l => by cases l <;> assumption⟩
  simp only [State.wf, Bool.and_eq_true, beq_iff_eq, hall, and_assoc]

/-! ### Select registers -/

theorem legalise_legal (bits : Nat) (ok : Bool) (x : Xlen) (w : Word) :
    (Isel.legalise bits ok x w).legal bits ok = true := by
  cases ok <;> simp [Isel.legal, Isel.legalise, Nat.mod_lt _ (Nat.two_pow_pos bits)]

theorem hold_legal (i : Isel) (bits : Nat) (ok : Bool) : (i.hold bits ok).legal bits ok = true := by
  cases ok <;> simp [Isel.legal, Isel.hold, Nat.mod_lt _ (Nat.two_pow_pos bits)]

/-- A CSR write leaves a select register alone, or gives it a value its configuration implements. -/
theorem csrWrite_iselLegal {s : State} {l : Level} (h : s.iselLegal l = true) (t : Target) (v : Word) :
    (csrWrite t s v).iselLegal l = true := by
  have heq : ∀ s' : State, s'.cfg = s.cfg → s'.isel l = s.isel l → s'.iselLegal l = true := by
    intro s' hcfg hisel
    rw [State.iselLegal, hcfg, hisel]
    exact h
  rcases csrWrite_cases s t v with ⟨_, _, e⟩ | ⟨l', _, e⟩ | ⟨_, ⟨_, i, _, e⟩ | ⟨_, a, e⟩⟩ <;> rw [e]
  · exact h
  · by_cases hl : l = l'
    · subst hl
      rw [State.iselLegal, withIsel_isel_self, withIsel_cfg]
      exact legalise_legal _ _ _ _
    · exact heq _ (withIsel_cfg _ _ _) (withIsel_isel_of_ne _ hl _)
  · exact heq _ rfl (withIntr_isel _ _ _)
  · rw [State.iselLegal, withCsrStateOf_isel, withCsrStateOf_cfg]
    exact hold_legal _ _ _

theorem resultState_iselLegal {s : State} {l : Level} (h : s.iselLegal l = true) (i : Instr) (t : Target) :
    (resultState i t s).iselLegal l = true := by
  rw [State.iselLegal, resultState_isel, resultState_cfg]
  split
  · simpa only [State.iselLegal, csrWrite_cfg] using csrWrite_iselLegal h t _
  · exact h

/-! ### State-enable bits -/

theorem enableLegal_iff (s : State) :
    s.enableLegal = true ↔
      (s.mstateen0.bit58 = true → s.cfg.hasImsic = true) ∧
      (s.hstateen0.bit58 = true → s.cfg.hstateen058Impl = true) := by
  simp only [State.enableLegal, Bool.and_eq_true, Bool.or_eq_true, Bool.not_eq_true']
  cases s.mstateen0.bit58 <;> cases s.hstateen0.bit58 <;> simp

theorem csrWrite_enableLegal {s : State} (h : s.enableLegal = true) (t : Target) (v : Word) :
    (csrWrite t s v).enableLegal = true := by
  rw [enableLegal_iff] at h ⊢
  rcases csrWrite_cases s t v with ⟨_, _, e⟩ | ⟨_, _, e⟩ | ⟨_, ⟨_, _, _, e⟩ | ⟨_, a, e⟩⟩ <;> rw [e]
  · exact h
  · simpa using h
  · exact h
  · simp

theorem resultState_enableLegal {s : State} (h : s.enableLegal = true) (i : Instr) (t : Target) :
    (resultState i t s).enableLegal = true := by
  rw [enableLegal_iff]
  cases hw : (use i).writes with
  | true =>
    rw [resultState_of_writes hw]
    simpa using (enableLegal_iff _).1 (csrWrite_enableLegal h t _)
  | false =>
    rw [resultState_of_not_writes hw]
    simpa using (enableLegal_iff _).1 h

/-! ### Interrupt registers, `pc`, `x0` -/

theorem intrLegal_iff (s : State) :
    s.intrLegal = true ↔ ∀ wmask, s.cfg.intrLogic = .plainStorage wmask → s.intr.canonical := by
  unfold State.intrLegal
  split
  · simp_all
  · simp_all [Intr.canonical, and_assoc]

theorem resultState_intrLegal {s : State} (h : s.intrLegal = true) (i : Instr) (t : Target) :
    (resultState i t s).intrLegal = true := by
  rw [intrLegal_iff] at h ⊢
  intro wmask hp
  rw [resultState_cfg] at hp
  rcases resultState_intr_plain hp i t with e | ⟨w, e⟩ <;> rw [e]
  · exact h wmask hp
  · exact store_canonical t _ w (h wmask hp)

theorem pcLegal_iff (s : State) : s.pcLegal = true ↔ s.pc.toNat % 4 = 0 ∧ fit s.xlen s.pc = s.pc := by
  simp [State.pcLegal]

/-- `pc + 4` modulo 2^XLEN, as a number (10_state.md R22). -/
theorem fit_add_four_toNat (x : Xlen) (p : Word) : (fit x (p + 4)).toNat = (p.toNat + 4) % 2 ^ x.bits := by
  rw [fit_toNat, BitVec.toNat_add]
  cases x <;> simp [Xlen.bits]

theorem resultState_pc_toNat (i : Instr) (t : Target) (s : State) :
    (resultState i t s).pc.toNat = (s.pc.toNat + 4) % 2 ^ s.xlen.bits := by
  rw [resultState_pc, fit_add_four_toNat]

theorem resultState_pcLegal {s : State} (h : s.pcLegal = true) (i : Instr) (t : Target) :
    (resultState i t s).pcLegal = true := by
  rw [pcLegal_iff] at h ⊢
  obtain ⟨halign, -⟩ := h
  constructor
  · rw [resultState_pc_toNat]
    cases s.xlen <;> simp only [Xlen.bits] <;> omega
  · rw [resultState_pc, resultState_xlen, fit_fit]

/-- A completing instruction changes no register but `x[rd]` (R149). -/
theorem resultState_x_of_ne {i : Instr} {r : Reg} (h : r ≠ i.rd) (t : Target) (s : State) :
    (resultState i t s).x[r] = s.x[r] := by
  rw [resultState_x]
  exact writeReg_get_of_ne s h _

theorem resultState_x0 (i : Instr) (t : Target) (s : State) : (resultState i t s).x[(0 : Reg)] = s.x[(0 : Reg)] := by
  by_cases h : i.rd = 0
  · rw [resultState_x, h, writeReg_zero]
  · exact resultState_x_of_ne (Ne.symm h) t s

/-- Settles O9: each part of a legal state is kept by the instruction that the step ran. -/
theorem everyStepKeepsLegalStates : Obligations.EveryStepKeepsLegalStates := by
  intro s s' hwf hstep
  obtain ⟨i, t, -, rfl⟩ := step_next_cases hstep
  obtain ⟨hcfg, hmode, hx0, hpc, hisel, hen, hmem, hintr⟩ := (wf_iff s).1 hwf
  refine (wf_iff _).2 ⟨?_, ?_, ?_, resultState_pcLegal hpc i t, fun l => resultState_iselLegal (hisel l) i t,
    resultState_enableLegal hen i t, ?_, resultState_intrLegal hintr i t⟩
  · rwa [resultState_cfg]
  · rwa [resultState_mode, resultState_cfg]
  · rwa [resultState_x0]
  · rwa [resultState_mem]

/-- Settles O8: the reset state is evaluated. -/
theorem resetIsLegal : Obligations.ResetIsLegal := by
  show State.reset.wf = true
  decide

end Sys2Proof.Machine
end

section
/-! PROOFS. Registers and frames: what a register reads after a write, and what a completing instruction leaves
unchanged. -/

namespace Sys2Proof.Machine

/-! ### General registers -/

theorem writeReg_readReg_self (s : State) {r : Reg} (h : r ≠ 0) (v : Word) :
    (s.writeReg r v).readReg r = fit s.xlen v := by
  simp only [State.readReg, h, if_false, writeReg_xlen, writeReg_get_self s h, fit_widen]

theorem writeReg_readReg_of_ne (s : State) {r q : Reg} (h : q ≠ r) (v : Word) :
    (s.writeReg r v).readReg q = s.readReg q := by
  simp only [State.readReg, writeReg_xlen, writeReg_get_of_ne s h]

/-- The upper half of a widened 32-bit value repeats bit 31 (R150). -/
theorem widen_w32_getLsbD (v : Word) {k : Nat} (h : 32 ≤ k) (h' : k < 64) :
    (widen .w32 v).getLsbD k = v.getLsbD 31 := by
  rw [widen, BitVec.getLsbD_signExtend, if_neg (by omega), BitVec.msb_eq_getLsbD_last]
  simp [h']

/-- Settles O10: a register keeps its value widened, and a read takes the XLEN bits back. -/
theorem registerWriteThenRead : Obligations.RegisterWriteThenRead := by
  intro s v
  refine ⟨readReg_zero s, writeReg_zero s v, fun r hr => ⟨?_, fun hx k hk hk' => ?_, fun q hq => ?_⟩⟩
  · rw [writeReg_readReg_self s hr, fit_toNat]
  · rw [writeReg_get_self s hr, hx, widen_w32_getLsbD v hk hk']
  · exact writeReg_readReg_of_ne s hq v

/-! ### Frames -/

/-- A form that does not write its CSR leaves all CSR state (R140). -/
theorem resultState_csrState_of_not_writes {i : Instr} (h : (use i).writes = false) (t : Target) (s : State) :
    (resultState i t s).intr = s.intr ∧ (resultState i t s).vgein = s.vgein ∧
    (resultState i t s).mstateen0 = s.mstateen0 ∧ (resultState i t s).hstateen0 = s.hstateen0 ∧
    ∀ l, (resultState i t s).isel l = s.isel l := by
  simp [resultState_of_not_writes h]

/-- A settled write leaves every select register but its target. -/
theorem resultState_isel_of_settled {t : Target} {s : State} (ht : t.settled s) (i : Instr) {l : Level}
    (hl : t ≠ .sel l) : (resultState i t s).isel l = s.isel l := by
  rw [resultState_isel]
  split
  · exact csrWrite_isel s _ ht l hl
  · rfl

theorem resultState_intr_sel (i : Instr) (l : Level) (s : State) : (resultState i (.sel l) s).intr = s.intr := by
  rw [resultState_intr]
  split <;> simp

/-- Settles O11: the registers, `pc` and the parameters of the run by the lemmas on `resultState`; the CSR state is left
by a form that does not write, and by the write of a select register but for that register. -/
theorem frameOfEveryInstruction : Obligations.FrameOfEveryInstruction := by
  intro i s s' hexec
  obtain ⟨t, hc, rfl⟩ := exec_next_cases hexec
  refine ⟨resultState_cfg i t s, resultState_mode i t s, fun a => ?_, fun r hr => resultState_x_of_ne hr t s,
    resultState_x0 i t s, resultState_pc_toNat i t s, fun hw => resultState_csrState_of_not_writes hw t s,
    fun l hl => ?_⟩
  · rw [resultState_mem]
  · rw [hl] at hc
    obtain rfl : Target.sel l = t := Access.ok.inj hc
    have hset : (Target.sel l).settled s := .inl ⟨l, rfl⟩
    refine ⟨resultState_intr_sel i l s, resultState_vgein i _ s (.inr hset), resultState_mstateen0 i _ s (.inr hset),
      resultState_hstateen0 i _ s (.inr hset), fun l' hl' => resultState_isel_of_settled hset i ?_⟩
    exact fun e => hl' (Target.sel.inj e).symm

section plain

variable {s : State} {wmask : Vector Word 14} (hp : s.cfg.intrLogic = .plainStorage wmask)
include hp

/-- What every store of the target's word leaves of the interrupt registers, a completing instruction leaves. -/
theorem resultState_intr_frame {α : Type} (f : Intr → α) (i : Instr) {t : Target}
    (h : ∀ w, f (t.store s.vgein s.intr w) = f s.intr) : f (resultState i t s).intr = f s.intr := by
  rcases resultState_intr_plain hp i t with e | ⟨w, e⟩ <;> rw [e]
  exact h w

theorem resultState_get64 (i : Instr) {t : Target} {r : Reg64} (hf : t ≠ .full r) (hh : t ≠ .high r) :
    (resultState i t s).intr.get64 r = s.intr.get64 r :=
  resultState_intr_frame hp (·.get64 r) i fun w => store_get64 t _ _ w hf hh

theorem resultState_getW (i : Instr) {t : Target} {r : RegW} {file : Nat}
    (h : t = .own r → r = .vstopei ∧ file ≠ s.vgein) :
    (resultState i t s).intr.getW file r = s.intr.getW file r :=
  resultState_intr_frame hp (·.getW file r) i fun w => store_getW t _ _ w h

theorem resultState_getIreg (i : Instr) {t : Target} {l : Level} {file n : Nat}
    (h : ∀ file' n', t = .ireg l file' n' → iregKey l file n ≠ iregKey l file' n') :
    (resultState i t s).intr.getIreg l file n = s.intr.getIreg l file n :=
  resultState_intr_frame hp (·.getIreg l file n) i fun w => store_getIreg t _ _ w h

end plain

/-- An access reaches the indirect register whose number in its space is the select value: no two registers that an
access can reach share a number. -/
theorem iregKey_ne_of_accessCheck {c : CsrNum} {wr : Bool} {s : State} {l : Level} {file n file' n' : Nat}
    (hc : accessCheck c wr s = .ok (.ireg l file' n')) (hfile : l ≠ .VS → file = 0) (hn : l = .VS → n < 256)
    (hne : ¬ (file = file' ∧ n = n')) : iregKey l file n ≠ iregKey l file' n' := by
  obtain ⟨hn', hfile', -⟩ := accessCheck_ireg hc
  intro hkey
  apply hne
  cases l with
  | M => exact ⟨(hfile (by decide)).trans (hfile' (.inl rfl)).symm, hkey⟩
  | S => exact ⟨(hfile (by decide)).trans (hfile' (.inr rfl)).symm, hkey⟩
  | VS => exact vsKey_injective (hn rfl) hn' hkey

/-- Settles O12: a settled write leaves all but the interrupt registers, and of those the store leaves every word but the
target's. -/
theorem plainStorageFrame : Obligations.PlainStorageFrame := by
  intro i s s' t wmask hp hc hexec
  obtain rfl : resultState i t s = s' := by
    rw [exec_of_ok hc] at hexec
    exact Host.Outcome.next.inj hexec
  have hset : t.settled s := .inr ⟨wmask, hp⟩
  have hireg : ∀ (l : Level) (file n : Nat), (l ≠ .VS → file = 0) → (l = .VS → n < 256) → t ≠ .ireg l file n →
      (resultState i t s).intr.getIreg l file n = s.intr.getIreg l file n := by
    intro l file n hfile hn hne
    refine resultState_getIreg hp i fun file' n' e => ?_
    subst e
    refine iregKey_ne_of_accessCheck hc hfile hn ?_
    rintro ⟨rfl, rfl⟩
    exact hne rfl
  refine ⟨resultState_vgein i t s (.inr hset), resultState_mstateen0 i t s (.inr hset),
    resultState_hstateen0 i t s (.inr hset),
    resultState_intr_frame hp (·.hgeip) i fun w => (store_hgei t _ _ w).1,
    resultState_intr_frame hp (·.hgeie) i fun w => (store_hgei t _ _ w).2,
    fun l hl => resultState_isel_of_settled hset i hl,
    fun r hf hh => resultState_get64 hp i hf hh,
    fun r hr file => resultState_getW hp i fun e => absurd e hr,
    fun file hfile => resultState_getW hp i fun _ => ⟨rfl, hfile⟩,
    fun n hn => hireg .M 0 n (fun _ => rfl) (fun e => by cases e) hn,
    fun n hn => hireg .S 0 n (fun _ => rfl) (fun e => by cases e) hn,
    fun file n hn ht => hireg .VS file n (fun e => absurd rfl e) (fun _ => hn) ht⟩

end Sys2Proof.Machine
end

section
/-! PROOFS. The access check of the 41 CSRs in the order of its steps (46_access_check_algorithm.md R350 to R356): which
CSRs are absent, what no mode below can reach, and which exceptions each kind of mode can raise. -/

namespace Sys2Proof.Machine

/-! ### From an instruction to the check of its CSR -/

theorem accessCheck_of_csr {c : CsrNum} {e : Csr} (h : c = e.number) (wr : Bool) (s : State) :
    accessCheck c wr s = csrCheck e wr s := by
  rw [h, accessCheck_number]

theorem exec_of_csrCheck_trap {i : Instr} {s : State} {e : Csr} {f : Fault} (h : i.csr = e.number)
    (hc : csrCheck e (use i).writes s = .trap f) : exec i s = .fault f :=
  exec_of_trap ((accessCheck_of_csr h _ s).trans hc)

/-- An instruction raises an exception exactly when the access check answers it. -/
theorem exec_fault_iff (i : Instr) (s : State) (f : Fault) :
    exec i s = .fault f ↔ accessCheck i.csr (use i).writes s = .trap f := by
  refine ⟨fun h => ?_, exec_of_trap⟩
  cases hc : accessCheck i.csr (use i).writes s with
  | ok t => rw [exec_of_ok hc] at h; cases h
  | trap g => rw [exec_of_trap hc] at h; cases h; rfl
  | refuse r => rw [exec_of_refuse hc] at h; cases h

/-- An instruction is refused exactly when the access check refuses it. -/
theorem exec_refused_iff (i : Instr) (s : State) (r : Refusal) :
    exec i s = .refused r ↔ accessCheck i.csr (use i).writes s = .refuse r := by
  refine ⟨fun h => ?_, exec_of_refuse⟩
  cases hc : accessCheck i.csr (use i).writes s with
  | ok t => rw [exec_of_ok hc] at h; cases h
  | trap f => rw [exec_of_trap hc] at h; cases h
  | refuse r' => rw [exec_of_refuse hc] at h; cases h; rfl

theorem forall_csr {p : Csr → Prop} (h : ∀ e ∈ Csr.all, p e) (e : Csr) : p e := h e (mem_all e)

/-! ### Steps 1 to 5 of R350 -/

theorem csrCheck_of_machineLevel {e : Csr} {s : State} (hl : e.row.level = .M) (hm : s.mode ≠ .m) (wr : Bool) :
    csrCheck e wr s = .illegal := by
  simp [csrCheck, hl, hm]

theorem csrCheck_of_u {s : State} (hm : s.mode = .u) (e : Csr) (wr : Bool) : csrCheck e wr s = .illegal := by
  simp [csrCheck, hm]

/-- With V = 0, or for a CSR that is neither `stopei` nor `vstopei`, the check is an illegal instruction exception if what
comes last in it is. -/
theorem csrCheck_illegal_of {e : Csr} {s : State} (htop : ¬ (s.mode.virt = true ∧ (e = .stopei ∨ e = .vstopei)))
    (h0 : s.mode.virt = false → checkV0 e s = .illegal) (h1 : s.mode.virt = true → checkV1 e s = .illegal)
    (wr : Bool) : csrCheck e wr s = .illegal := by
  unfold csrCheck
  rw [if_neg htop]
  split_ifs with hl hu hx hro hv
  · rfl
  · rfl
  · rfl
  · rfl
  · exact h0 (by simpa using hv)
  · exact h1 (by simpa using hv)

theorem csrCheck_of_absent {e : Csr} {s : State} (hx : csrExists e s = false)
    (htop : ¬ (s.mode.virt = true ∧ (e = .stopei ∨ e = .vstopei))) (wr : Bool) : csrCheck e wr s = .illegal := by
  unfold csrCheck
  rw [if_neg htop]
  simp [hx]

theorem csrCheck_of_readOnly {e : Csr} (hro : e.row.code.readOnly = true) (htop : ¬ (e = .stopei ∨ e = .vstopei))
    (s : State) : csrCheck e true s = .illegal := by
  simp [csrCheck, hro, htop]

/-- What the column "exists when" of R26 comes to (R352). -/
theorem csrExists_false_iff (e : Csr) (s : State) :
    csrExists e s = false ↔
      (s.cfg.hasS = false ∧ e.row.needsS = true) ∨ (s.cfg.hasH = false ∧ e.row.needsH = true) ∨
      (s.cfg.hasImsic = false ∧ e.row.needsImsic = true) ∨ (s.xlen = .w64 ∧ e.row.kind = .high) := by
  have hx : (s.xlen == .w32) = false ↔ s.xlen = .w64 := by cases s.xlen <;> decide
  simp only [csrExists, Bool.and_eq_false_iff, Bool.or_eq_false_iff, Bool.not_eq_false', hx, bne_eq_false_iff_eq]
  tauto

/-- Settles O28: absence is read off the table. -/
theorem absentCsrIsIllegal : Obligations.AbsentCsrIsIllegal := by
  refine fun s => ⟨fun i e hnum hx htop => exec_of_csrCheck_trap hnum (csrCheck_of_absent hx htop _), fun e => ?_⟩
  rw [csrExists_false_iff]
  refine or_congr (and_congr_right fun _ => ?_) (or_congr (and_congr_right fun _ => ?_)
    (or_congr (and_congr_right fun _ => ?_) (and_congr_right fun _ => ?_)))
  all_goals
    revert e
    exact forall_csr (by decide)

/-- Settles O29: the read-only rule stands before the modes part. -/
theorem writeToReadOnlyIsIllegal : Obligations.WriteToReadOnlyIsIllegal := by
  intro i s hc hw
  have hcsr : ∃ e : Csr, i.csr = e.number ∧ e.row.code.readOnly = true ∧ ¬ (e = .stopei ∨ e = .vstopei) := by
    rcases hc with hc | hc | hc
    · exact ⟨.mtopi, hc, rfl, by decide⟩
    · exact ⟨.stopi, hc, rfl, by decide⟩
    · exact ⟨.vstopi, hc, rfl, by decide⟩
  obtain ⟨e, hnum, hro, htop⟩ := hcsr
  apply exec_of_csrCheck_trap hnum
  rw [hw]
  exact csrCheck_of_readOnly hro htop s

/-- Settles O32: the test of the level is the first step of R350. -/
theorem machineCsrsOnlyInMMode : Obligations.MachineCsrsOnlyInMMode :=
  fun _ _ _ hnum hl hm => exec_of_csrCheck_trap hnum (csrCheck_of_machineLevel hl hm _)

/-- Settles O33: the test of U-mode is the second step of R350. -/
theorem uModeAccessIsIllegal : Obligations.UModeAccessIsIllegal :=
  fun _ _ e hnum hm => exec_of_csrCheck_trap hnum (csrCheck_of_u hm e _)

/-! ### V = 0 -/

theorem csrCheck_ne_virtual {s : State} (hv : s.mode.virt = false) (e : Csr) (wr : Bool) :
    csrCheck e wr s ≠ .virtual := by
  unfold csrCheck
  split_ifs with hl hu htop hx hro hv'
  · simp
  · simp
  · simp [hv] at htop
  · simp
  · simp
  · exact checkV0_ne_virtual e s
  · simp [hv] at hv'

theorem aliasCheck_ne_virtual {s : State} (hv : s.mode.virt = false) (l : Level) (c : CsrNum) :
    aliasCheck l c s ≠ .virtual := by
  cases hm : s.mode with
  | vs => simp [hm, Mode.virt] at hv
  | vu => simp [hm, Mode.virt] at hv
  | _ => cases l <;> simp only [aliasCheck, hm] <;> split_ifs <;> simp

/-- Settles O34: with V = 0 neither the check of a CSR nor that of the aliases answers so. -/
theorem noVirtualInstructionWhenV0 : Obligations.NoVirtualInstructionWhenV0 := by
  intro i s hv
  rw [ne_eq, exec_fault_iff]
  unfold accessCheck
  split
  · exact aliasCheck_ne_virtual hv _ _
  · split
    · exact csrCheck_ne_virtual hv _ _
    · simp

/-- In M-mode no test of a state-enable bit is made (R311). -/
theorem csrCheck_of_m {s : State} (hm : s.mode = .m) (e : Csr) (wr : Bool) (a b : StateEnable) :
    csrCheck e wr { s with mstateen0 := a, hstateen0 := b } = csrCheck e wr s := by
  have hne : s.mode ≠ .hs := by simp [hm]
  have hv : s.mode.virt = false := by rw [hm]; rfl
  have hS : siregAccess { s with mstateen0 := a, hstateen0 := b } = siregAccess s := by
    simp only [siregAccess, hne, false_and, if_false]
    rfl
  have hVS : vsiregDirect { s with mstateen0 := a, hstateen0 := b } = vsiregDirect s := by
    simp only [vsiregDirect, hne, false_and, if_false]
    rfl
  have hV0 : checkV0 e { s with mstateen0 := a, hstateen0 := b } = checkV0 e s := by
    simp only [checkV0, hne, hS, hVS, false_and, if_false]
    rfl
  simp only [csrCheck, hv, hV0, Bool.false_eq_true, false_and, if_false, Bool.not_false, if_true]
  rfl

theorem aliasCheck_of_m {s : State} (hm : s.mode = .m) (l : Level) (c : CsrNum) (a b : StateEnable) :
    aliasCheck l c { s with mstateen0 := a, hstateen0 := b } = aliasCheck l c s := by
  cases l <;> simp only [aliasCheck, hm]

/-- Settles O35: every test of a state-enable bit is made in a mode other than M. -/
theorem mModeIgnoresStateEnables : Obligations.MModeIgnoresStateEnables := by
  intro c wr s a b hm
  simp only [accessCheck, csrCheck_of_m hm, aliasCheck_of_m hm]

/-- Settles O36: what the access check reads of the state is the same. -/
theorem v0IgnoresHstateen0 : Obligations.V0IgnoresHstateen0 :=
  fun c wr _ b hv => (sameAccess_hstateen0 hv b).accessCheck c wr

/-! ### V = 1 -/

/-- With V = 1, what the steps of R350 before `CheckV1` let pass comes to it. -/
theorem csrCheck_eq_checkV1 {e : Csr} {wr : Bool} {s : State} (hv : s.mode.virt = true) (hM : e.row.level ≠ .M)
    (htop : ¬ (e = .stopei ∨ e = .vstopei)) (hx : csrExists e s = true)
    (hro : ¬ (wr = true ∧ e.row.code.readOnly = true)) : csrCheck e wr s = checkV1 e s := by
  have hu : s.mode ≠ .u := by
    intro hu
    simp [hu, Mode.virt] at hv
  simp only [csrCheck, hM, hu, htop, hx, hro, hv, false_and, and_false, if_false, Bool.not_true, Bool.false_eq_true]

/-- The default rule (R266, R290, R291): with V = 1, where only a hypervisor or VS CSR or VU-mode comes to the test of
`mstateen0`, the access is a virtual instruction exception if it exists, can be made, and passes the test. -/
theorem csrCheck_default {e : Csr} {s : State} (hv : s.mode.virt = true) (hM : e.row.level ≠ .M)
    (he : e ∉ [Csr.sireg, .vsireg, .stopei, .vstopei]) (hH : e.row.level = .H ∨ s.mode = .vu) (wr : Bool) :
    csrCheck e wr s =
      .trap (if csrExists e s = true ∧ ¬ (wr = true ∧ e.row.code.readOnly = true) ∧ s.msOpt e.row.en = true
        then .virtualInstruction else .illegalInstruction) := by
  simp only [List.mem_cons, List.not_mem_nil, or_false, not_or] at he
  obtain ⟨hsi, hvsi, hst, hvst⟩ := he
  have htop : ¬ (e = .stopei ∨ e = .vstopei) := by simp [hst, hvst]
  have hu : s.mode ≠ .u := by
    intro hu
    simp [hu, Mode.virt] at hv
  have hV1 : checkV1 e s = .trap (if s.msOpt e.row.en = true then .virtualInstruction else .illegalInstruction) := by
    cases hen : s.msOpt e.row.en <;> simp [checkV1, hsi, hvsi, hen, hH]
  simp only [csrCheck, hM, hu, htop, hv, hV1, false_and, and_false, if_false, Bool.not_true, Bool.false_eq_true]
  cases hx : csrExists e s
  · simp
  · by_cases hro : wr = true ∧ e.row.code.readOnly = true <;> simp [hro]

/-- Settles O39: both cases of the statement are those of `csrCheck_default`. -/
theorem defaultVirtualInstructionRule : Obligations.DefaultVirtualInstructionRule := by
  intro i s e hnum he hmode
  have hv : s.mode.virt = true := by rcases hmode with ⟨hm, -⟩ | ⟨hm, -⟩ <;> rw [hm] <;> rfl
  have hM : e.row.level ≠ .M := by
    rcases hmode with ⟨-, hl⟩ | ⟨-, hl⟩
    · rw [hl]; decide
    · exact hl
  have hH : e.row.level = .H ∨ s.mode = .vu := hmode.imp (·.2) (·.1)
  exact exec_of_csrCheck_trap hnum (csrCheck_default hv hM he hH _)

/-- The CSRs of `hstateen0`'s bit 59 that a guest has by their own number. -/
def guest59List : List Csr := [.stopi, .sieh, .siph]

theorem row_of_mem_guest59List : ∀ e ∈ guest59List,
    e.row.en = some .b59 ∧ e.row.level ≠ .M ∧ e ∉ [Csr.sireg, .vsireg, .stopei, .vstopei] := by decide

/-- With V = 1, past the bit of `mstateen0`, the CSRs of bit 59 that exist and can take the access are virtual instruction
exceptions from VU-mode, by the default rule, and from VS-mode where the bit of `hstateen0` is zero (R323). -/
theorem csrCheck_guest59 {e : Csr} (he : e ∈ guest59List) {s : State} (hv : s.mode.virt = true)
    (hms : s.ms .b59 = true) (hzero : s.hs .b59 = false ∨ s.mode = .vu) (hx : csrExists e s = true) {wr : Bool}
    (hro : ¬ (wr = true ∧ e.row.code.readOnly = true)) : csrCheck e wr s = .virtual := by
  obtain ⟨hen, hM, hne⟩ := row_of_mem_guest59List e he
  rcases hzero with hhs | hvu
  · have htop : ¬ (e = .stopei ∨ e = .vstopei) := by
      rintro (rfl | rfl) <;> simp at hne
    rw [csrCheck_eq_checkV1 hv hM htop hx hro]
    exact checkV1_of_hs_false hen hms hhs
  · rw [csrCheck_default hv hM hne (.inr hvu), if_pos ⟨hx, hro, by rw [hen]; exact hms⟩]

/-- Settles O45: the three CSRs are those of `guest59List`, and with XLEN = 64 the high halves are absent. -/
theorem hstateen59ZeroIsVirtual : Obligations.Hstateen59ZeroIsVirtual := by
  intro i s hwf hh hsm hbit hv hzero
  have hms : s.ms .b59 = true := by rw [ms_eq_mstateen0Bit hsm (by decide), hbit]
  have hS : s.cfg.hasS = true := hasS_of_hasH hwf hh
  rw [← hs_eq_hstateen0Bit hsm hh (by decide)] at hzero
  constructor
  · rintro (⟨hc, hw⟩ | ⟨hx, hc | hc⟩)
    · refine exec_of_csrCheck_trap (e := .stopi) hc (csrCheck_guest59 (by decide) hv hms hzero ?_ (by simp [hw]))
      simp [csrExists, Csr.row, CsrRow.supervisor, hS]
    · refine exec_of_csrCheck_trap (e := .sieh) hc (csrCheck_guest59 (by decide) hv hms hzero ?_ (fun h => nomatch h.2))
      simp [csrExists, Csr.row, CsrRow.supervisor, hS, hx]
    · refine exec_of_csrCheck_trap (e := .siph) hc (csrCheck_guest59 (by decide) hv hms hzero ?_ (fun h => nomatch h.2))
      simp [csrExists, Csr.row, CsrRow.supervisor, hS, hx]
  · rintro hx (hc | hc)
    · exact exec_of_csrCheck_trap (e := .sieh) hc
        (csrCheck_of_absent ((csrExists_false_iff _ _).2 (.inr (.inr (.inr ⟨hx, rfl⟩)))) (by simp) _)
    · exact exec_of_csrCheck_trap (e := .siph) hc
        (csrCheck_of_absent ((csrExists_false_iff _ _).2 (.inr (.inr (.inr ⟨hx, rfl⟩)))) (by simp) _)

end Sys2Proof.Machine
end

section
/-! PROOFS. What an allowed access reaches: from M-mode and HS-mode the CSR's own register, from VS-mode the VS twin's
(43_hypervisor_vs_csrs.md R262); and what a virtual machine therefore cannot change. -/

namespace Sys2Proof.Machine

theorem exec_completes {i : Instr} {s : State} {t : Target} (h : accessCheck i.csr (use i).writes s = .ok t) :
    ∃ s', exec i s = .next s' ∧ s'.pc.toNat = (s.pc.toNat + 4) % 2 ^ s.xlen.bits :=
  ⟨_, exec_of_ok h, resultState_pc_toNat i t s⟩

/-! ### M-mode and HS-mode -/

theorem plainTarget_isOk {e : Csr} (hw : ∀ l, e.row.reach ≠ .window l) : ∃ t, plainTarget e = .ok t := by
  unfold plainTarget
  split
  case h_6 l hl => exact absurd hl (hw l)
  all_goals exact ⟨_, rfl⟩

theorem checkV0_vstopei (s : State) :
    checkV0 .vstopei s =
      if s.mode = .hs ∧ !s.ms .b58 then .illegal
      else if !s.vgeinValid then .illegal else .ok (.own .vstopei) := rfl

/-- With V = 0 a reachable CSR that is no window is itself, `vstopei` with a valid VGEIN. -/
theorem csrCheck_eq_plainTarget {e : Csr} {s : State} {wr : Bool} (h : reachableV0 e s)
    (hw : ∀ l, e.row.reach ≠ .window l) (hro : wr = true → e.row.code.readOnly = false)
    (hvg : e = .vstopei → 1 ≤ s.vgein ∧ s.vgein ≤ s.cfg.geilen) : csrCheck e wr s = plainTarget e := by
  rw [csrCheck_of_reachableV0 h hro]
  have hen := enabled_of_reachableV0 h
  by_cases he : e = .vstopei
  · subst he
    have h58 : s.mode = .hs → s.ms .b58 = true := hen
    have hpass : ¬ (s.mode = .hs ∧ (!s.ms .b58) = true) := fun ⟨hm, hb⟩ => by simp [h58 hm] at hb
    rw [checkV0_vstopei, if_neg hpass, (vgeinValid_iff s).2 (hvg rfl)]
    rfl
  · exact checkV0_plain hen hw he

/-- Settles O19: the CSR's own register is reached, and every access let through completes. -/
theorem existingCsrAccessCompletes : Obligations.ExistingCsrAccessCompletes := by
  intro i s e hnum hreach hw hro hvg
  obtain ⟨t, ht⟩ := plainTarget_isOk hw
  apply exec_completes (t := t)
  rw [accessCheck_of_csr hnum, csrCheck_eq_plainTarget hreach hw hro hvg, ht]

/-! ### VS-mode -/

/-- What a guest reaches by the numbers of the supervisor CSRs that are neither a window nor `stopei` (R262). -/
def guestTargets : List (Csr × Target) :=
  [(.siselect, .sel .VS), (.sie, .full .vsie), (.sip, .full .vsip), (.sieh, .high .vsie), (.siph, .high .vsip),
   (.stopi, .top .VS)]

/-- The list holds the twins' registers. -/
theorem twin_of_mem_guestTargets : ∀ p ∈ guestTargets, ∃ e ∈ p.1.twin.toList, plainTarget e = .ok p.2 := by decide

/-- The list is complete: of the other two twins `vsireg` has no register of its own. -/
theorem mem_guestTargets_of_twin : ∀ e ∈ Csr.all, e ≠ .stopei →
    ∀ e' ∈ e.twin.toList, plainTarget e' = .illegal ∨ ∃ p ∈ guestTargets, p.1 = e ∧ plainTarget e' = .ok p.2 := by
  decide

theorem row_of_mem_guestTargets : ∀ p ∈ guestTargets, p.1.row.level = .S ∧ p.1.row.needsH = false ∧
    p.1.row.needsImsic = false ∧ p.1 ∉ [Csr.sireg, .vsireg, .stopei, .vstopei] := by decide

theorem csrExists_of_mem_guestTargets {e : Csr} {t : Target} (he : (e, t) ∈ guestTargets) {s : State}
    (hS : s.cfg.hasS = true) (hx : e.row.kind = .high → s.xlen = .w32) : csrExists e s = true := by
  obtain ⟨-, hH, hI, -⟩ := row_of_mem_guestTargets _ he
  rw [← Bool.not_eq_false, csrExists_false_iff]
  rintro (⟨h, -⟩ | ⟨-, h⟩ | ⟨-, h⟩ | ⟨h, hk⟩)
  · simp [hS] at h
  · simp [hH] at h
  · simp [hI] at h
  · simp [hx hk] at h

/-- From VS-mode a supervisor CSR of the list that exists, is let through by its bit of both state-enable registers, and
can take the access reaches the VS twin (R262, R356). -/
theorem csrCheck_guest {e : Csr} {t : Target} (he : (e, t) ∈ guestTargets) {s : State} {wr : Bool}
    (hS : s.cfg.hasS = true) (hm : s.mode = .vs) (hen : ∀ b, e.row.en = some b → s.ms b = true ∧ s.hs b = true)
    (hx : e.row.kind = .high → s.xlen = .w32) (hro : ¬ (wr = true ∧ e.row.code.readOnly = true)) :
    csrCheck e wr s = .ok t := by
  obtain ⟨hl, -, -, hne⟩ := row_of_mem_guestTargets _ he
  obtain ⟨e', he', ht⟩ := twin_of_mem_guestTargets _ he
  simp only [Option.mem_toList] at he'
  simp only [List.mem_cons, List.not_mem_nil, or_false, not_or] at hne
  obtain ⟨hsi, hvsi, hst, hvst⟩ := hne
  have hv : s.mode.virt = true := by rw [hm]; rfl
  have hms : s.msOpt e.row.en = true ∧ s.hsOpt e.row.en = true := by
    cases hb : e.row.en with
    | none => exact ⟨rfl, rfl⟩
    | some b => exact hen b hb
  rw [csrCheck_eq_checkV1 hv (by rw [hl]; decide) (by simp [hst, hvst]) (csrExists_of_mem_guestTargets he hS hx) hro]
  simp [checkV1, hsi, hvsi, hms, hl, hm, he', ht]

/-- The state-enable bit of each CSR of the list. -/
theorem en_of_mem_guestTargets : ∀ p ∈ guestTargets, p.1.row.en = none ∨
    (p.1.row.en = some .b60 ∧ p.1.number = 0x150#12) ∨
    (p.1.row.en = some .b59 ∧ p.1.number ∈ [0x114#12, 0x154#12, 0xDB0#12]) := by decide

/-- Settles O20: the conditions of the statement are those of `csrCheck_guest`, by number. -/
theorem guestCsrAccessCompletes : Obligations.GuestCsrAccessCompletes := by
  intro i s tgt hS hm hmem h60 hx h59 hw
  have hlist : (i.csr, tgt) ∈ guestTargets.map fun p => (p.1.number, p.2) := hmem
  obtain ⟨⟨e, t⟩, he, heq⟩ := List.mem_map.1 hlist
  obtain ⟨hnum, rfl⟩ := Prod.mk.inj heq
  have hen : ∀ b, e.row.en = some b → s.ms b = true ∧ s.hs b = true := by
    intro b hb
    rcases en_of_mem_guestTargets _ he with h | ⟨h, hn⟩ | ⟨h, hn⟩ <;> rw [hb] at h <;> cases h
    · exact h60 (hnum ▸ hn)
    · exact h59 (hnum ▸ hn)
  have hkind : e.row.kind = .high → s.xlen = .w32 := by
    intro hk
    have hhigh := (show ∀ p ∈ guestTargets, p.1.row.kind = .high → p.1.number ∈ [0x114#12, 0x154#12] by decide) _ he hk
    rw [State.xlen, hm]
    exact hx (hnum ▸ hhigh)
  have hro : ¬ ((use i).writes = true ∧ e.row.code.readOnly = true) := by
    rintro ⟨hwr, hr⟩
    have hst := (show ∀ p ∈ guestTargets, p.1.row.code.readOnly = true → p.1.number = 0xDB0#12 by decide) _ he hr
    rw [hw (hnum ▸ hst)] at hwr
    cases hwr
  have hc : accessCheck i.csr (use i).writes s = .ok t := by
    rw [accessCheck_of_csr hnum.symm, csrCheck_guest he hS hm hen hkind hro]
  exact ⟨hc, exec_completes hc⟩

/-- All that a guest's access can reach: a register of the list, or its guest interrupt file by `stopei` or `sireg`. -/
theorem csrCheck_ok_of_virt {e : Csr} {wr : Bool} {s : State} {t : Target} (hv : s.mode.virt = true)
    (h : csrCheck e wr s = .ok t) :
    s.mode = .vs ∧
    (((e, t) ∈ guestTargets ∧ ¬ (wr = true ∧ e.row.code.readOnly = true)) ∨
     (e = .sireg ∧ t = .ireg .VS s.vgein s.iselVS.val ∧ s.iselVS.within 0x70 0xFF ∧ s.vgeinValid = true) ∨
     (e = .stopei ∧ t = .own .vstopei ∧ s.vgeinValid = true)) := by
  have hvs : s.mode ≠ .vu → s.mode = .vs := by
    intro hvu
    cases hm : s.mode <;> simp_all [Mode.virt]
  unfold csrCheck at h
  split_ifs at h with hl hu htop hx hro
  · obtain ⟨rfl, hne, hvu, -, -, -, hvg⟩ := topeiVirtual_ok h
    exact ⟨hvs hvu, .inr (.inr ⟨htop.2.resolve_right hne, rfl, hvg⟩)⟩
  · simp [hv] at *
  · obtain ⟨hvu, ⟨rfl, hsi⟩ | ⟨-, -, -, e', he', ht⟩⟩ := checkV1_ok h
    · obtain ⟨rfl, -, hsel, hvg, -⟩ := siregVirtual_ok hsi
      exact ⟨hvs hvu, .inr (.inl ⟨rfl, rfl, hsel, hvg⟩)⟩
    · have hne : e ≠ .stopei := by
        rintro rfl
        exact htop ⟨hv, .inl rfl⟩
      rcases mem_guestTargets_of_twin e (mem_all e) hne e' (by simpa using he') with hi | ⟨p, hp, rfl, hp2⟩
      · rw [hi] at ht
        cases ht
      · rw [hp2] at ht
        cases ht
        exact ⟨hvs hvu, .inl ⟨hp, hro⟩⟩

/-- Settles O37: `csrCheck_ok_of_virt`, by number. -/
theorem guestReachesOnlyTwins : Obligations.GuestReachesOnlyTwins := by
  intro c wr s t hv h
  obtain ⟨e, rfl, hc⟩ := accessCheck_ok h
  obtain ⟨hm, hcases⟩ := csrCheck_ok_of_virt hv hc
  refine ⟨hm, ?_⟩
  rcases hcases with ⟨hmem, hro⟩ | ⟨rfl, ht, hsel, hvg⟩ | ⟨rfl, ht, hvg⟩
  · simp only [guestTargets, List.mem_cons, Prod.mk.injEq, List.not_mem_nil, or_false] at hmem
    rcases hmem with ⟨rfl, rfl⟩ | ⟨rfl, rfl⟩ | ⟨rfl, rfl⟩ | ⟨rfl, rfl⟩ | ⟨rfl, rfl⟩ | ⟨rfl, rfl⟩
    · exact .inl ⟨rfl, rfl⟩
    · exact .inr (.inr (.inl ⟨rfl, rfl⟩))
    · exact .inr (.inr (.inr (.inl ⟨rfl, rfl⟩)))
    · exact .inr (.inr (.inr (.inr (.inl ⟨rfl, rfl⟩))))
    · exact .inr (.inr (.inr (.inr (.inr (.inl ⟨rfl, rfl⟩)))))
    · have hwr : wr = false := by simpa [Csr.row, CsrRow.supervisor, PrivCode.readOnly] using hro
      exact .inr (.inr (.inr (.inr (.inr (.inr (.inl ⟨rfl, rfl, hwr⟩))))))
  · exact .inr (.inl ⟨rfl, ht, hsel, (vgeinValid_iff s).1 hvg⟩)
  · exact .inr (.inr (.inr (.inr (.inr (.inr (.inr ⟨rfl, ht, (vgeinValid_iff s).1 hvg⟩))))))

/-! ### What a guest cannot change -/

/-- The targets of a virtual machine are all of the VS level. -/
def Target.isGuest (t : Target) (vgein : Nat) : Prop :=
  t = .sel .VS ∨ t = .full .vsie ∨ t = .full .vsip ∨ t = .high .vsie ∨ t = .high .vsip ∨ t = .top .VS ∨
  t = .own .vstopei ∨ ∃ n, t = .ireg .VS vgein n

theorem isGuest_of_accessCheck {c : CsrNum} {wr : Bool} {s : State} {t : Target} (hv : s.mode.virt = true)
    (h : accessCheck c wr s = .ok t) : t.isGuest s.vgein := by
  obtain ⟨-, ⟨-, rfl⟩ | ⟨-, rfl, -⟩ | ⟨-, rfl⟩ | ⟨-, rfl⟩ | ⟨-, rfl⟩ | ⟨-, rfl⟩ | ⟨-, rfl, -⟩ | ⟨-, rfl, -⟩⟩ :=
    guestReachesOnlyTwins c wr s t hv h <;> simp [Target.isGuest]

/-- The words of the machine level and the supervisor level, `hvictl` among them, are the same. -/
structure Intr.SameAboveVS (i j : Intr) : Prop where
  mtopei : j.mtopei = i.mtopei
  stopei : j.stopei = i.stopei
  hvictl : j.hvictl = i.hvictl
  iregM : j.iregM = i.iregM
  iregS : j.iregS = i.iregS

/-- A store to a target of the VS level leaves the words of the levels above. -/
theorem store_guest {t : Target} {vgein : Nat} (h : t.isGuest vgein) (i : Intr) (w : Word) :
    i.SameAboveVS (t.store vgein i w) := by
  rcases h with rfl | rfl | rfl | rfl | rfl | rfl | rfl | ⟨n, rfl⟩ <;> exact ⟨rfl, rfl, rfl, rfl, rfl⟩

/-- Settles O38: a guest's `siselect` is `vsiselect`, and every other target of a guest is of the VS level, under
`PlainStorage` one word of it. -/
theorem guestIsolation : Obligations.GuestIsolation := by
  intro i s s' hv hexec
  obtain ⟨t, hc, rfl⟩ := exec_next_cases hexec
  have hguest : t.isGuest s.vgein := isGuest_of_accessCheck hv hc
  have hselM : t ≠ .sel .M := by rintro rfl; simp [Target.isGuest] at hguest
  have hselS : t ≠ .sel .S := by rintro rfl; simp [Target.isGuest] at hguest
  constructor
  · intro hcase
    cases hw : (use i).writes with
    | false =>
      obtain ⟨hintr, hvg, hmst, hhst, hisel⟩ := resultState_csrState_of_not_writes hw t s
      exact ⟨hisel .M, hisel .S, hvg, hmst, hhst, hintr⟩
    | true =>
      have hnum : i.csr = Csr.number .siselect := hcase.resolve_right (by simp [hw])
      rw [accessCheck_of_csr hnum] at hc
      obtain rfl : t = .sel .VS := by
        obtain ⟨-, ⟨hmem, -⟩ | ⟨h, -⟩ | ⟨h, -⟩⟩ := csrCheck_ok_of_virt hv hc
        · simpa [guestTargets] using hmem
        · cases h
        · cases h
      have hset : (Target.sel .VS).settled s := .inl ⟨.VS, rfl⟩
      exact ⟨resultState_isel_of_settled hset i hselM, resultState_isel_of_settled hset i hselS,
        resultState_vgein i _ s (.inr hset), resultState_mstateen0 i _ s (.inr hset),
        resultState_hstateen0 i _ s (.inr hset), resultState_intr_sel i .VS s⟩
  · intro wmask hp
    have hset : t.settled s := .inr ⟨wmask, hp⟩
    have hstore := store_guest hguest s.intr
    refine ⟨resultState_isel_of_settled hset i hselM, resultState_isel_of_settled hset i hselS,
      resultState_vgein i t s (.inr hset), resultState_mstateen0 i t s (.inr hset),
      resultState_hstateen0 i t s (.inr hset), fun r hsie hsip => resultState_get64 hp i ?_ ?_,
      resultState_intr_frame hp (·.mtopei) i fun w => (hstore w).mtopei,
      resultState_intr_frame hp (·.stopei) i fun w => (hstore w).stopei,
      resultState_intr_frame hp (·.hvictl) i fun w => (hstore w).hvictl,
      resultState_intr_frame hp (·.iregM) i fun w => (hstore w).iregM,
      resultState_intr_frame hp (·.iregS) i fun w => (hstore w).iregS,
      fun file hfile => resultState_getW hp i fun _ => ⟨rfl, hfile⟩,
      fun file n hfile hn => resultState_getIreg hp i fun file' n' e => ?_⟩
    · rintro rfl
      simp [Target.isGuest, hsie, hsip] at hguest
    · rintro rfl
      simp [Target.isGuest, hsie, hsip] at hguest
    · subst e
      obtain ⟨-, -, hfile'⟩ := accessCheck_ireg hc
      refine iregKey_ne_of_accessCheck hc (fun h => absurd rfl h) (fun _ => hn) ?_
      rintro ⟨rfl, -⟩
      exact hfile (hfile' rfl)

end Sys2Proof.Machine
end

section
/-! PROOFS. Select registers (10_state.md R29 to R31): what a write keeps, and what a read shows at either width. -/

namespace Sys2Proof.Machine

/-! ### Which accesses reach a select register -/

theorem csrExists_vsiselect {s : State} (hh : s.cfg.hasH = true) : csrExists .vsiselect s = true := by
  simp [csrExists, Csr.row, CsrRow.hypervisor, hh]

theorem reachableV0_of_en {e : Csr} {s : State} {b : EnBit} (hx : csrExists e s = true) (hen : e.row.en = some b)
    (hM : e.row.level ≠ .M) (hm : s.mode = .m ∨ (s.mode = .hs ∧ s.ms b = true)) : reachableV0 e s :=
  ⟨hx, hm.imp_right fun ⟨hhs, hb⟩ => ⟨hhs, hM, by rw [hen]; exact hb⟩⟩

/-- Every allowed access reaches its select register, whether it reads or writes. -/
theorem accessCheck_of_selectAllowed {s : State} {c : CsrNum} {l : Level} (h : selectAllowed s c l) (wr : Bool) :
    accessCheck c wr s = .ok (.sel l) := by
  have hV0 : ∀ e : Csr, reachableV0 e s → e.row.reach = .sel l → e.row.code.readOnly = false →
      accessCheck e.number wr s = .ok (.sel l) := by
    intro e hreach hsel hro
    rw [accessCheck_number, csrCheck_eq_plainTarget hreach (by simp [hsel]) (fun _ => hro)
      (by rintro rfl; cases hsel), plainTarget_ok_iff]
    exact .inl ⟨l, hsel, rfl⟩
  rcases h with ⟨hm, rfl, rfl⟩ | ⟨hS, hm, rfl, rfl⟩ | ⟨hh, hm, rfl, rfl⟩ | ⟨hS, hm, hms, hhs, rfl, rfl⟩
  · exact hV0 .miselect ⟨rfl, .inl hm⟩ rfl rfl
  · exact hV0 .siselect (reachableV0_of_en (csrExists_siselect hS) rfl (by decide) hm) rfl rfl
  · exact hV0 .vsiselect (reachableV0_of_en (csrExists_vsiselect hh) rfl (by decide) hm) rfl rfl
  · refine (accessCheck_number .siselect wr s).trans
      (csrCheck_guest (by decide) hS hm ?_ (fun h => nomatch h) (fun h => nomatch h.2))
    rintro _ ⟨⟩
    exact ⟨hms, hhs⟩

/-- What `selectAllowed` reads of the state, a write of a select register leaves. -/
theorem selectAllowed_select_complete {s : State} {c : CsrNum} {l : Level} (h : selectAllowed s c l) (l' : Level)
    (v : Isel) (rd : Reg) (w : Word) : selectAllowed ((s.withIsel l' v).complete rd w) c l := by
  simpa [selectAllowed, State.ms, State.hs, State.mstateen0Bit, State.hstateen0Bit] using h

/-- A `csrrw` of an allowed select register stores the legalised value (R30). -/
theorem exec_csrrw_select {s : State} {c : CsrNum} {l : Level} (h : selectAllowed s c l) (rd rs1 : Reg) :
    exec (.csrrw rd c rs1) s =
      .next ((s.withIsel l
        (Isel.legalise (s.cfg.iselBits l) (s.cfg.iselCustom l) s.xlen (s.readReg rs1))).complete rd
          ((s.isel l).view s.xlen)) :=
  csrrwCompletes rd rs1 c s (.sel l) (accessCheck_of_selectAllowed h true)

/-- A `csrrs` with `x0` of an allowed select register shows it at the width of the mode (R29). -/
theorem exec_csrrs_select {s : State} {c : CsrNum} {l : Level} (h : selectAllowed s c l) (rd : Reg) :
    exec (.csrrs rd c 0) s = .next (s.complete rd ((s.isel l).view s.xlen)) :=
  (csrrsCompletes rd 0 c s (.sel l)).1 (accessCheck_of_selectAllowed h false)

/-! ### Values -/

theorem legalise_view_toNat {bits : Nat} (hb : bits ≤ 31) (ok : Bool) (x : Xlen) (w : Word) :
    ((Isel.legalise bits ok x w).view x).toNat =
      (if ok = true ∧ w.getLsbD (x.bits - 1) = true then 2 ^ (x.bits - 1) else 0) + w.toNat % 2 ^ bits := by
  have hval : (Isel.legalise bits ok x w).val < 2 ^ 31 := by
    rw [legalise_val ok x w hb]
    exact (Nat.mod_lt _ (Nat.two_pow_pos bits)).trans_le (Nat.pow_le_pow_right (by decide) hb)
  rw [view_toNat _ _ hval, legalise_val ok x w hb]
  simp only [Isel.legalise, Bool.and_eq_true]

/-- A value below the implemented bits is stored as written. -/
theorem legalise_of_lt {bits : Nat} (hb : bits ≤ 31) (ok : Bool) (x : Xlen) {w : Word} (hw : w.toNat < 2 ^ bits) :
    Isel.legalise bits ok x w = ⟨false, w.toNat⟩ := by
  have hbit : w.getLsbD (x.bits - 1) = false := by
    apply Nat.testBit_lt_two_pow
    refine hw.trans_le (Nat.pow_le_pow_right (by decide) ?_)
    cases x <;> simp [Xlen.bits] <;> omega
  have hval := legalise_val ok x w hb
  rw [Nat.mod_eq_of_lt hw] at hval
  rw [← hval]
  simp [Isel.legalise, hbit]

theorem view_fit (i : Isel) (x : Xlen) : fit x (i.view x) = i.view x := fit_fit x _

/-- Settles O21: the write stores the legalised value, and the read shows what was stored. -/
theorem selectWriteThenRead : Obligations.SelectWriteThenRead := by
  intro s c l rs1 rd hcfg hsel hrd
  refine ⟨_, _, exec_csrrw_select hsel 0 rs1, exec_csrrs_select (selectAllowed_select_complete hsel _ _ _ _) rd, ?_,
    fun l' hl' => ?_, ?_⟩
  · simp
  · rw [complete_isel, withIsel_isel_of_ne s hl']
  · obtain ⟨-, hbits, -, -⟩ := iselBits_bounds hcfg l
    rw [complete_readReg_self _ _ hrd, view_fit]
    simp only [complete_isel, withIsel_isel_self, complete_xlen, withIsel_xlen]
    exact legalise_view_toNat hbits _ _ _

/-- Settles O22: the ranges lie below the implemented bits. -/
theorem selectHoldsRequiredRange : Obligations.SelectHoldsRequiredRange := by
  intro s c l rs1 hcfg hsel hlt
  obtain ⟨hmin, hmax, himsic, hvs⟩ := iselBits_bounds hcfg l
  refine ⟨_, exec_csrrw_select hsel 0 rs1, ?_⟩
  rw [complete_isel, withIsel_isel_self]
  refine legalise_of_lt hmax _ _ (hlt.trans_le ?_)
  split_ifs with hl hi
  · exact Nat.pow_le_pow_right (n := 2) (by decide) (hvs hl)
  · exact Nat.pow_le_pow_right (n := 2) (by decide) (himsic hi)
  · exact Nat.pow_le_pow_right (n := 2) (by decide) hmin

theorem view_custom (i : Isel) (x : Xlen) (h : i.val < 2 ^ 31) : (i.view x).getLsbD (x.bits - 1) = i.custom := by
  have hval : i.val < 2 ^ (x.bits - 1) := by
    refine h.trans_le (Nat.pow_le_pow_right (by decide) ?_)
    cases x <;> decide
  have hbit : i.val.testBit (x.bits - 1) = false := Nat.testBit_lt_two_pow hval
  rw [BitVec.getLsbD, view_toNat i x h]
  cases i.custom
  · simp [hbit]
  · simp [Nat.testBit_two_pow_add_eq, hbit]

/-- Settles O23: the number a width shows is the custom bit's place value and the register number. -/
theorem customBitMovesWithXlen : Obligations.CustomBitMovesWithXlen := by
  intro i h
  refine ⟨view_custom i .w32 h, view_custom i .w64 h, ?_, ?_, ?_⟩ <;>
    rw [view_toNat i _ h] <;> cases i.custom <;> simp [Xlen.bits] <;> omega

end Sys2Proof.Machine
end

section
/-! PROOFS. The 64-bit registers and their halves (10_state.md R27, R28), the registers with a width of their own
(00_scope.md R9), and the "top interrupt" registers. -/

namespace Sys2Proof.Machine

/-! ### Which accesses reach them -/

theorem reach_top_of_readOnly : ∀ e ∈ Csr.all, e.row.code.readOnly = true →
    e.row.reach ∈ [Reach.top .M, .top .S, .top .VS] := by decide

/-- With V = 0 a reachable CSR reaches its own register, if it is not a "top interrupt" register being written or `vstopei`
without a valid VGEIN. -/
theorem accessCheck_of_plainTarget {e : Csr} {s : State} {wr : Bool} {t : Target} (h : reachableV0 e s)
    (ht : plainTarget e = .ok t) (hro : wr = true → ∀ l, t ≠ .top l)
    (hvg : t = .own .vstopei → 1 ≤ s.vgein ∧ s.vgein ≤ s.cfg.geilen) : accessCheck e.number wr s = .ok t := by
  rw [accessCheck_number, csrCheck_eq_plainTarget h, ht]
  · intro l hw
    simp [plainTarget, hw] at ht
  · intro hwr
    rw [← Bool.not_eq_true]
    intro hr
    have htop := reach_top_of_readOnly e (mem_all e) hr
    simp only [List.mem_cons, List.not_mem_nil, or_false] at htop
    rcases htop with hl | hl | hl <;> simp only [plainTarget, hl] at ht <;> cases ht <;> exact hro hwr _ rfl
  · rintro rfl
    cases ht
    exact hvg rfl

theorem plainTarget_full {e : Csr} {r : Reg64} (h : e.row.reach = .full r) : plainTarget e = .ok (.full r) := by
  simp [plainTarget, h]

theorem plainTarget_high {e : Csr} {r : Reg64} (h : e.row.reach = .high r) : plainTarget e = .ok (.high r) := by
  simp [plainTarget, h]

theorem plainTarget_own {e : Csr} {r : RegW} (h : e.row.reach = .own r) : plainTarget e = .ok (.own r) := by
  simp [plainTarget, h]

theorem accessCheck_full {e : Csr} {r : Reg64} {s : State} (hr : e.row.reach = .full r) (h : reachableV0 e s)
    (wr : Bool) : accessCheck e.number wr s = .ok (.full r) :=
  accessCheck_of_plainTarget h (plainTarget_full hr) (by simp) (by simp)

/-- The high-half names are those of the kind that exists with XLEN = 32 only (R28). -/
theorem kind_of_reach_high {e : Csr} {r : Reg64} (h : e.row.reach = .high r) : e.row.kind = .high := by
  revert h
  cases e <;> simp [Csr.row, CsrRow.machine, CsrRow.supervisor, CsrRow.hypervisor]

theorem xlen_of_csrExists_high {e : Csr} {s : State} (hx : csrExists e s = true) (hk : e.row.kind = .high) :
    s.xlen = .w32 := by
  cases hxl : s.xlen with
  | w32 => rfl
  | w64 =>
    rw [(csrExists_false_iff e s).2 (.inr (.inr (.inr ⟨hxl, hk⟩)))] at hx
    cases hx

/-! ### 64-bit registers -/

theorem csrRead_full (r : Reg64) (s : State) :
    csrRead (.full r) s = BitVec.ofNat 64 ((rd64 r s).toNat % 2 ^ s.xlen.bits) := fit_eq_ofNat _ _

theorem csrRead_high (r : Reg64) (s : State) :
    csrRead (.high r) s = BitVec.ofNat 64 ((rd64 r s).toNat / 2 ^ 32) := upperHalf_eq_ofNat _

/-- A register's value written by the plain name: whole with XLEN = 64, over the lower half with XLEN = 32. -/
theorem csrWrite_full_readReg (r : Reg64) (s : State) (rs1 : Reg) :
    csrWrite (.full r) s (s.readReg rs1) =
      wr64 r s (if s.xlen = .w64 then s.readReg rs1
        else BitVec.ofNat 64 ((rd64 r s).toNat / 2 ^ 32 * 2 ^ 32 + (s.readReg rs1).toNat)) := by
  rw [csrWrite, mergeLow_eq_ofNat _ (readReg_lt s rs1)]

theorem csrWrite_high_readReg (r : Reg64) {s : State} (hx : s.xlen = .w32) (rs1 : Reg) :
    csrWrite (.high r) s (s.readReg rs1) =
      wr64 r s (BitVec.ofNat 64 ((s.readReg rs1).toNat * 2 ^ 32 + (rd64 r s).toNat % 2 ^ 32)) := by
  have hlt := readReg_lt s rs1
  rw [hx] at hlt
  rw [csrWrite, mergeHigh_eq_ofNat _ hlt]

/-- Settles O24: `csrrw` of the reached register, with both values as numbers. -/
theorem fullNameAccess : Obligations.FullNameAccess := by
  intro s e r rd rs1 hr hreach
  rw [csrrwCompletes rd rs1 _ s _ (accessCheck_full hr hreach true), csrWrite_full_readReg, csrRead_full]

/-- Settles O25: a high half exists with XLEN = 32 only; `csrrw` of it, with both values as numbers. -/
theorem highHalfAccess : Obligations.HighHalfAccess := by
  intro s e r rd rs1 hr hreach
  have hx : s.xlen = .w32 := xlen_of_csrExists_high hreach.1 (kind_of_reach_high hr)
  have hc : accessCheck e.number true s = .ok (.high r) :=
    accessCheck_of_plainTarget hreach (plainTarget_high hr) (by simp) (by simp)
  refine ⟨hx, ?_⟩
  rw [csrrwCompletes rd rs1 _ s _ hc, csrWrite_high_readReg r hx, csrRead_high]

/-- A guest's access by number, as `csrCheck_guest` answers it for a writable CSR under no bit or under bit 59. -/
theorem accessCheck_guest {e : Csr} {t : Target} (he : (e, t) ∈ guestTargets) {s : State} (hS : s.cfg.hasS = true)
    (hm : s.mode = .vs) (hen : e.row.en = none ∨ (e.row.en = some .b59 ∧ s.ms .b59 = true ∧ s.hs .b59 = true))
    (hx : e.row.kind = .high → s.xlen = .w32) {wr : Bool} (hro : ¬ (wr = true ∧ e.row.code.readOnly = true)) :
    accessCheck e.number wr s = .ok t := by
  rw [accessCheck_number]
  refine csrCheck_guest he hS hm (fun b hb => ?_) hx hro
  rcases hen with h | ⟨h, hbits⟩ <;> rw [hb] at h <;> cases h
  exact hbits

/-- Settles O26: the four numbers reach `vsie`, `vsip` and their halves, and XLEN is VSXLEN. -/
theorem guestInterruptRegisterAccess : Obligations.GuestInterruptRegisterAccess := by
  intro s rd rs1 hS hm
  have hxl : s.xlen = s.cfg.vsxlen := by rw [State.xlen, hm]; rfl
  rw [← hxl]
  constructor
  · intro c r hc
    have hacc : accessCheck c true s = .ok (.full r) := by
      simp only [List.mem_cons, Prod.mk.injEq, List.not_mem_nil, or_false] at hc
      rcases hc with ⟨rfl, rfl⟩ | ⟨rfl, rfl⟩
      · exact accessCheck_guest (e := .sie) (by decide) hS hm (.inl rfl) (fun h => nomatch h) (fun h => nomatch h.2)
      · exact accessCheck_guest (e := .sip) (by decide) hS hm (.inl rfl) (fun h => nomatch h) (fun h => nomatch h.2)
    rw [csrrwCompletes rd rs1 _ s _ hacc, csrWrite_full_readReg, csrRead_full]
  · intro hx hms hhs c r hc
    have hen : s.ms .b59 = true ∧ s.hs .b59 = true := ⟨hms, hhs⟩
    have hacc : accessCheck c true s = .ok (.high r) := by
      simp only [List.mem_cons, Prod.mk.injEq, List.not_mem_nil, or_false] at hc
      rcases hc with ⟨rfl, rfl⟩ | ⟨rfl, rfl⟩
      · exact accessCheck_guest (e := .sieh) (by decide) hS hm (.inr ⟨rfl, hen⟩) (fun _ => hx) (fun h => nomatch h.2)
      · exact accessCheck_guest (e := .siph) (by decide) hS hm (.inr ⟨rfl, hen⟩) (fun _ => hx) (fun h => nomatch h.2)
    rw [csrrwCompletes rd rs1 _ s _ hacc, csrWrite_high_readReg r hx, csrRead_high]

/-! ### Under `PlainStorage` a written register reads back -/

/-- The end of an instruction that changed only the interrupt registers leaves every access as it was. -/
theorem sameAccess_withIntr_complete (s : State) (j : Intr) (rd : Reg) (w : Word) :
    SameAccess s ((s.withIntr j).complete rd w) where
  cfg := by simp
  mode := by simp
  iselM := by simp
  iselS := by simp
  iselVS := by simp
  ms b := by simp [State.ms, State.mstateen0Bit]
  vgein _ := by simp
  hs _ b _ := by simp [State.hs, State.hstateen0Bit]
  guestFile _ := by simp [State.guestFile, State.hs, State.hstateen0Bit, State.vgeinValid]

theorem rd64_plain {s : State} {wmask : Vector Word 14} (hp : s.cfg.intrLogic = .plainStorage wmask) (r : Reg64) :
    rd64 r s = s.intr.get64 r := by
  simp only [rd64, hp]

/-- The bits of a value merged with XLEN = 32. -/
theorem mergeLow_w32_getLsbD (old v : Word) (k : Nat) :
    (mergeLow .w32 old v).getLsbD k = if k < 32 then v.getLsbD k else old.getLsbD k := by
  refine (BitVec.getLsbD_append (x := old.extractLsb' 32 32) (y := v.extractLsb' 0 32)).trans ?_
  by_cases hk : k < 32
  · simp [hk]
  · by_cases h64 : k < 64
    · simp [hk, show k - 32 < 32 by omega, show 32 + (k - 32) = k by omega]
    · simp [hk, show ¬ k - 32 < 32 by omega, BitVec.getLsbD_of_ge old k (by omega)]

/-- A mode sees of a merged value under a mask what it wrote under the mask. -/
theorem fit_mergeLow_and (x : Xlen) (old v m : Word) : fit x (mergeLow x old v &&& m) = fit x (v &&& m) := by
  cases x
  · simp only [fit]
    congr 1
    ext k hk
    simp [mergeLow_w32_getLsbD, hk]
  · rfl

/-- A merged value keeps the old bits from XLEN upwards. -/
theorem mergeLow_getLsbD_of_ge (x : Xlen) (old v : Word) {k : Nat} (hk : x.bits ≤ k) :
    (mergeLow x old v).getLsbD k = old.getLsbD k := by
  cases x
  · have h32 : 32 ≤ k := hk
    rw [mergeLow_w32_getLsbD, if_neg (by omega)]
  · have h64 : 64 ≤ k := hk
    rw [BitVec.getLsbD_of_ge _ _ h64, BitVec.getLsbD_of_ge _ _ h64]

/-- Settles O27: the store keeps the access, and the read sees the stored word. -/
theorem plainStorageRegisterReadsBack : Obligations.PlainStorageRegisterReadsBack := by
  intro s e r rd rs1 wmask hp hr hreach hrd
  have hwrite := csrrwCompletes 0 rs1 _ s _ (accessCheck_full hr hreach true)
  simp only [csrWrite, wr64_plain hp, rd64_plain hp] at hwrite
  refine ⟨_, _, hwrite, (csrrsCompletes rd 0 _ _ (.full r)).1 ?_, ?_, fun k hk => ?_⟩
  · rw [(sameAccess_withIntr_complete s _ _ _).accessCheck]
    exact accessCheck_full hr hreach false
  · rw [complete_readReg_self _ _ hrd]
    simp only [csrRead, rd64, complete_cfg, withIntr_cfg, hp, complete_intr, withIntr_intr, get64_set64_self,
      complete_xlen, withIntr_xlen, fit_fit, fit_mergeLow_and, fit_toNat, BitVec.toNat_and]
  · simp only [complete_intr, withIntr_intr, get64_set64_self, BitVec.getLsbD_and, mergeLow_getLsbD_of_ge _ _ _ hk]

/-! ### "Top interrupt" registers and registers with a width of their own -/

theorem exec_csrrs_top {e : Csr} {l : Level} {s : State} (ht : plainTarget e = .ok (.top l)) (h : reachableV0 e s)
    (rd : Reg) : exec (.csrrs rd e.number 0) s = .next (s.complete rd (fit s.xlen (topi l s))) :=
  (csrrsCompletes rd 0 _ s (.top l)).1 (accessCheck_of_plainTarget h ht (by simp) (by simp))

/-- Settles O30: a `csrrs` with `x0` does not write, so the read-only rule lets it through. -/
theorem topInterruptReads : Obligations.TopInterruptReads := by
  intro s rd
  refine ⟨fun hm => ?_, fun h => ?_, fun h => ?_, fun hm hS hms hhs => ?_⟩
  · exact exec_csrrs_top (e := .mtopi) rfl ⟨rfl, .inl hm⟩ rd
  · exact exec_csrrs_top (e := .stopi) rfl h rd
  · exact exec_csrrs_top (e := .vstopi) rfl h rd
  · exact (csrrsCompletes rd 0 _ s (.top .VS)).1 (accessCheck_guest (e := .stopi) (by decide) hS hm
      (.inr ⟨rfl, hms, hhs⟩) (fun h => nomatch h) (fun h => nomatch h.1))

theorem xlen_bits_le {c : Cfg} (h : c.wf = true) : c.vsxlen.bits ≤ c.sxlen.bits ∧ c.sxlen.bits ≤ c.mxlen.bits := by
  simp only [Cfg.wf, Bool.and_eq_true, decide_eq_true_eq] at h
  simp only [h, and_self]

/-- A mode that reaches a register with a width of its own is at least as wide. -/
theorem regW_bits_le {s : State} (hcfg : s.cfg.wf = true) {e : Csr} {r : RegW} (hr : e.row.reach = .own r)
    (h : reachableV0 e s) : (RegW.xlen s.cfg r).bits ≤ s.xlen.bits := by
  obtain ⟨hvs, hs⟩ := xlen_bits_le hcfg
  obtain ⟨-, hm | ⟨hm, hM, -⟩⟩ := h
  · rw [State.xlen, hm]
    cases r
    · exact le_rfl
    · exact hs
    · exact hvs.trans hs
    · exact hs
  · rw [State.xlen, hm]
    cases r
    · have hmtopei : ∀ e ∈ Csr.all, e.row.reach = .own .mtopei → e.row.level = .M := by decide
      exact absurd (hmtopei e (mem_all e) hr) hM
    · exact le_rfl
    · exact hvs
    · exact le_rfl

/-- A `csrrw` that reaches a register with a width of its own, from a mode at least as wide. -/
theorem exec_csrrw_own {c : CsrNum} {s : State} {r : RegW} (h : accessCheck c true s = .ok (.own r))
    (hle : (RegW.xlen s.cfg r).bits ≤ s.xlen.bits) (rd rs1 : Reg) :
    exec (.csrrw rd c rs1) s =
      .next ((wrW r s (BitVec.ofNat 64 ((s.readReg rs1).toNat % 2 ^ (RegW.xlen s.cfg r).bits))).complete rd
        (rdW r s)) := by
  have hread : fit s.xlen (rdW r s) = rdW r s := by
    apply BitVec.eq_of_toNat_eq
    rw [fit_toNat]
    exact Nat.mod_eq_of_lt ((rdW_lt r s).trans_le (Nat.pow_le_pow_right (by decide) hle))
  rw [csrrwCompletes rd rs1 c s _ h]
  simp only [csrWrite, csrRead, hread, fit_eq_ofNat (RegW.xlen s.cfg r)]

/-- `stopei` from VS-mode with a guest interrupt file to reach is `vstopei` of that file (R258, R355). -/
theorem csrCheck_stopei_of_guestFile {s : State} (hm : s.mode = .vs) (hi : s.cfg.hasImsic = true)
    (h58 : s.ms .b58 = true) (hhs : s.hs .b58 = true) (hvg : s.vgeinValid = true) (wr : Bool) :
    csrCheck .stopei wr s = .ok (.own .vstopei) := by
  have htop : topeiVirtual .stopei s = .ok (.own .vstopei) := by
    simp [topeiVirtual, hm, hi, h58, hhs, hvg]
  simp [csrCheck, Csr.row, CsrRow.supervisor, hm, Mode.virt, htop]

/-- Settles O31: the modes that reach such a register are at least as wide. -/
theorem ownWidthAccess : Obligations.OwnWidthAccess := by
  intro s rd rs1 hcfg
  refine ⟨fun e r hr h hvg => ⟨rdW_lt r s, ?_⟩, fun hm hi h58 hhs hlo hhi => ⟨rdW_lt .vstopei s, ?_⟩⟩
  · have hc : accessCheck e.number true s = .ok (.own r) :=
      accessCheck_of_plainTarget h (plainTarget_own hr) (by simp) fun ht => hvg (Target.own.inj ht)
    exact exec_csrrw_own hc (regW_bits_le hcfg hr h) rd rs1
  · have hc : accessCheck (Csr.number .stopei) true s = .ok (.own .vstopei) := by
      rw [accessCheck_number]
      exact csrCheck_stopei_of_guestFile hm hi h58 hhs ((vgeinValid_iff s).2 ⟨hlo, hhi⟩) true
    have hle : (RegW.xlen s.cfg .vstopei).bits ≤ s.xlen.bits := by rw [State.xlen, hm]; exact le_rfl
    exact exec_csrrw_own hc hle rd rs1

end Sys2Proof.Machine
end

section
/-! PROOFS. The windows `mireg`, `sireg` and `vsireg`, and a guest's `sireg`, by select value (41 R168, 42 R208, 43 R254,
R255); and the two ways to the guest interrupt file's `vstopei` (43 R258). -/

namespace Sys2Proof.Machine

/-! ### What an instruction makes of a window's answer -/

/-- A window whose select value names an indirect register: it completes if the register exists (41 R168). -/
theorem exec_of_iregAccess {i : Instr} {s : State} {l : Level} {file n : Nat}
    (h : accessCheck i.csr (use i).writes s = iregAccess s l file n) :
    (iregExists s.cfg l file n s.xlen = false → exec i s = .fault .illegalInstruction) ∧
    (iregExists s.cfg l file n s.xlen = true →
      accessCheck i.csr (use i).writes s = .ok (.ireg l file n) ∧ ∃ t, exec i s = .next t) := by
  rw [iregAccess] at h
  refine ⟨fun hx => ?_, fun hx => ?_⟩
  · exact exec_of_trap (h.trans (by simp [hx]))
  · have hok : accessCheck i.csr (use i).writes s = .ok (.ireg l file n) := h.trans (by simp [hx])
    exact ⟨hok, _, exec_of_ok hok⟩

/-- A reserved select value: an exception or a refusal, as the configuration has it (decision D5). -/
theorem exec_of_reservedOutcome {i : Instr} {s : State} {l : Level}
    (h : accessCheck i.csr (use i).writes s = reservedOutcome s l) :
    exec i s = if s.cfg.reservedSelectFaults then .fault .illegalInstruction else .refused (.reservedSelect l) := by
  rcases reservedOutcome_cases s l with ⟨hf, hr⟩ | ⟨hf, hr⟩
  · rw [exec_of_trap (h.trans hr), if_pos hf]
  · rw [exec_of_refuse (h.trans hr), if_neg (by simp [hf])]

/-! ### `mireg` -/

theorem accessCheck_mireg {c : CsrNum} {s : State} (hc : c = 0x351#12) (hm : s.mode = .m) (wr : Bool) :
    accessCheck c wr s = miregAccess s := by
  have hreach : reachableV0 .mireg s := ⟨rfl, .inl hm⟩
  rw [accessCheck_of_csr (e := .mireg) hc, csrCheck_of_reachableV0 hreach fun _ => rfl,
    checkV0_uncontrolled rfl, if_pos rfl]

/-- Settles O48: R168, class by class. -/
theorem miregByMiselect : Obligations.MiregByMiselect := by
  intro i s hc hm
  have hacc := accessCheck_mireg hc hm (use i).writes
  refine ⟨fun hcust => ?_, fun hcust hres => ?_, fun hsel hi => ?_, fun hsel => exec_of_iregAccess (hacc.trans ?_)⟩
  · apply exec_of_refuse
    rw [hacc, miregAccess, (selClass_custom_iff _).2 hcust]
  · apply exec_of_reservedOutcome
    rw [hacc, miregAccess, (selClass_reserved_iff _).2 ⟨hcust, hres⟩]
  · apply exec_of_trap
    rw [hacc, miregAccess, (selClass_eint_iff _).2 hsel]
    simp [hi]
  · rcases hsel with hsel | ⟨hsel, hi⟩
    · rw [miregAccess, (selClass_prio_iff _).2 hsel]
    · rw [miregAccess, (selClass_eint_iff _).2 hsel]
      simp [hi]

/-! ### `sireg` and `vsireg` with V = 0 -/

/-- From HS-mode a window of bit 60 is an illegal instruction exception where the bit is zero (R354). -/
theorem exec_window_of_b60_false {i : Instr} {s : State} {e : Csr} (hc : i.csr = e.number)
    (hen : e.row.en = some .b60) (hm : s.mode = .hs) (hb : s.ms .b60 = false) :
    exec i s = .fault .illegalInstruction :=
  exec_of_csrCheck_trap hc (csrCheck_of_ms_false hen hb (by rw [hm]; decide) _)

/-- With V = 0 the access to a window of bit 60 that the bit lets through comes to `CheckV0`. -/
theorem csrCheck_window_V0 {e : Csr} {s : State} (hx : csrExists e s = true) (hen : e.row.en = some .b60)
    (hM : e.row.level ≠ .M) (hro : e.row.code.readOnly = false) (hm : s.mode = .m ∨ s.mode = .hs)
    (hb : s.mode = .hs → s.ms .b60 = true) (wr : Bool) : csrCheck e wr s = checkV0 e s :=
  csrCheck_of_reachableV0 (reachableV0_of_en hx hen hM (hm.imp_right fun h => ⟨h, hb h⟩)) fun _ => hro

/-- The test that R208 and R254 make in HS-mode alone is passed. -/
theorem hsTest_passed {s : State} {b : EnBit} (h : s.mode = .hs → s.ms b = true) :
    ¬ (s.mode = .hs ∧ (!s.ms b) = true) := by
  rintro ⟨hm, hb⟩
  simp [h hm] at hb

theorem checkV0_sireg_of_b60 {s : State} (hb : s.mode = .hs → s.ms .b60 = true) : checkV0 .sireg s = siregAccess s := by
  rw [checkV0_sireg, if_neg (hsTest_passed hb)]

theorem checkV0_vsireg (s : State) :
    checkV0 .vsireg s = if s.mode = .hs ∧ !s.ms .b60 then .illegal else vsiregDirect s := rfl

theorem checkV0_vsireg_of_b60 {s : State} (hb : s.mode = .hs → s.ms .b60 = true) :
    checkV0 .vsireg s = vsiregDirect s := by
  rw [checkV0_vsireg, if_neg (hsTest_passed hb)]

theorem accessCheck_sireg_V0 {c : CsrNum} {s : State} (hc : c = 0x151#12) (hS : s.cfg.hasS = true)
    (hm : s.mode = .m ∨ s.mode = .hs) (hb : s.mode = .hs → s.ms .b60 = true) (wr : Bool) :
    accessCheck c wr s = siregAccess s := by
  rw [accessCheck_of_csr (e := .sireg) hc,
    csrCheck_window_V0 (csrExists_sireg hS) rfl (by decide) rfl hm hb, checkV0_sireg_of_b60 hb]

theorem accessCheck_vsireg_V0 {c : CsrNum} {s : State} (hc : c = 0x251#12) (hh : s.cfg.hasH = true)
    (hm : s.mode = .m ∨ s.mode = .hs) (hb : s.mode = .hs → s.ms .b60 = true) (wr : Bool) :
    accessCheck c wr s = vsiregDirect s := by
  rw [accessCheck_of_csr (e := .vsireg) hc,
    csrCheck_window_V0 (csrExists_vsireg hh) rfl (by decide) rfl hm hb, checkV0_vsireg_of_b60 hb]

/-- Settles O49: R208, class by class. -/
theorem siregBySiselect : Obligations.SiregBySiselect := by
  intro i s hc hS hm
  refine ⟨fun hhs hb => exec_window_of_b60_false (e := .sireg) hc rfl hhs hb, fun hb => ?_⟩
  have hacc := accessCheck_sireg_V0 hc hS hm hb (use i).writes
  refine ⟨fun hcust => ?_, fun hres => ?_, fun hhs hsel h59 => ?_, fun hhs hsel hi h58 => ?_,
    fun hsel => exec_of_iregAccess (hacc.trans ?_)⟩
  · apply exec_of_refuse
    rw [hacc, siregAccess, (selClass_custom_iff _).2 hcust]
  · apply exec_of_reservedOutcome
    rcases hres with ⟨hcust, hres⟩ | ⟨hsel, hi⟩
    · rw [hacc, siregAccess, (selClass_reserved_iff _).2 ⟨hcust, hres⟩]
    · rw [hacc, siregAccess, (selClass_eint_iff _).2 hsel]
      simp [hi]
  · apply exec_of_trap
    rw [hacc, siregAccess, (selClass_prio_iff _).2 hsel]
    simp [hhs, h59]
  · apply exec_of_trap
    rw [hacc, siregAccess, (selClass_eint_iff _).2 hsel]
    simp [hhs, hi, h58]
  · rcases hsel with ⟨hsel, h59⟩ | ⟨hsel, hi, h58⟩
    · rw [siregAccess, (selClass_prio_iff _).2 hsel]
      simp only [if_neg (hsTest_passed h59)]
    · rw [siregAccess, (selClass_eint_iff _).2 hsel]
      simp only [hi, Bool.not_true, Bool.false_eq_true, if_false, if_neg (hsTest_passed h58)]

/-- Settles O50: R254, class by class. -/
theorem vsiregByVsiselect : Obligations.VsiregByVsiselect := by
  intro i s hc hh hm
  refine ⟨fun hhs hb => exec_window_of_b60_false (e := .vsireg) hc rfl hhs hb, fun hb => ?_⟩
  have hacc := accessCheck_vsireg_V0 hc hh hm hb (use i).writes
  refine ⟨fun hcust => ?_, fun hcust hres => ?_, fun hsel => ?_, fun hsel hvg => ?_, fun hhs hsel h58 => ?_,
    fun hsel hlo hhi h58 => exec_of_iregAccess (hacc.trans ?_)⟩
  · apply exec_of_refuse
    rw [hacc, vsiregDirect, State.vsClass, (selClass_custom_iff _).2 hcust]
  · apply exec_of_reservedOutcome
    rw [hacc, vsiregDirect, State.vsClass, (selClass_reserved_iff _).2 ⟨hcust, hres⟩]
  · apply exec_of_trap
    rw [hacc, vsiregDirect, State.vsClass, (selClass_prio_iff _).2 hsel]
  · apply exec_of_trap
    rw [hacc, vsiregDirect, State.vsClass, (selClass_eint_iff _).2 hsel, (vgeinValid_false_iff s).2 hvg]
    rfl
  · apply exec_of_trap
    rw [hacc, vsiregDirect, State.vsClass, (selClass_eint_iff _).2 hsel]
    cases s.vgeinValid <;> simp [hhs, h58]
  · rw [vsiregDirect, State.vsClass, (selClass_eint_iff _).2 hsel, (vgeinValid_iff s).2 ⟨hlo, hhi⟩]
    simp only [if_true, if_neg (hsTest_passed h58)]

/-! ### `sireg` from VS-mode -/

theorem accessCheck_sireg_VS {c : CsrNum} {s : State} (hc : c = 0x151#12) (hS : s.cfg.hasS = true)
    (hm : s.mode = .vs) (hms : s.ms .b60 = true) (hhs : s.hs .b60 = true) (wr : Bool) :
    accessCheck c wr s = guestWindowAccess s := by
  have hv : s.mode.virt = true := by rw [hm]; rfl
  rw [accessCheck_of_csr (e := .sireg) hc, csrCheck_of_virt hv (by decide) (by decide) (csrExists_sireg hS) rfl,
    checkV1_sireg, siregVirtual_eq]
  simp [hms, hm, hhs]

theorem guestFile_eq_none_iff (s : State) :
    s.guestFile = none ↔
      s.cfg.hasImsic = false ∨ s.hs .b58 = false ∨ ¬ (1 ≤ s.vgein ∧ s.vgein ≤ s.cfg.geilen) := by
  rw [← vgeinValid_false_iff, State.guestFile]
  cases s.cfg.hasImsic <;> cases s.hs .b58 <;> cases s.vgeinValid <;> simp

theorem guestFile_eq_some {s : State} (hi : s.cfg.hasImsic = true) (hhs : s.hs .b58 = true)
    (hvg : 1 ≤ s.vgein ∧ s.vgein ≤ s.cfg.geilen) : s.guestFile = some s.vgein := by
  simp [State.guestFile, hi, hhs, (vgeinValid_iff s).2 hvg]

/-- Settles O51: R255, class by class; the guest interrupt file is `guestFile`. -/
theorem siregFromVsMode : Obligations.SiregFromVsMode := by
  intro i s hc hS hm hms hhs
  have hacc := accessCheck_sireg_VS hc hS hm hms hhs (use i).writes
  refine ⟨fun hcust => ?_, fun hcust hres => ?_, fun hsel => ?_, fun hsel => ?_⟩
  · apply exec_of_refuse
    rw [hacc, guestWindowAccess, (selClass_custom_iff _).2 hcust]
  · apply exec_of_reservedOutcome
    rw [hacc, guestWindowAccess, (selClass_reserved_iff _).2 ⟨hcust, hres⟩]
  · apply exec_of_trap
    rw [hacc, guestWindowAccess, (selClass_prio_iff _).2 hsel]
  · rw [guestWindowAccess, (selClass_eint_iff _).2 hsel] at hacc
    refine ⟨fun h58 => exec_of_trap (hacc.trans ?_), fun h58 => ⟨fun hfile => ?_, fun hi h58' hlo hhi => ?_⟩⟩
    · simp [guestFileAccess, hasImsic_of_ms_b58_false h58, h58]
    · exact exec_virtual_of_no_guestFile hm hS h58 ((guestFile_eq_none_iff s).2 hfile) (.inl ⟨hc, hsel, hms, hhs⟩)
    · apply exec_of_iregAccess
      rw [hacc, guestFileAccess, guestFile_eq_some hi h58' ⟨hlo, hhi⟩]
      simp [h58]

/-- Settles O52: both halves are cases of the windows' own theorems. -/
theorem inaccessibleSelectValues : Obligations.InaccessibleSelectValues := by
  intro i s hcfg hh
  have hS : s.cfg.hasS = true := hasS_of_hasH hcfg hh
  refine ⟨fun hm hc hsel => ?_, fun hm hc hms hhs hsel => ?_⟩
  · obtain ⟨hblocked, hpassed⟩ := vsiregByVsiselect i s hc hh hm
    by_cases hb : s.mode = .hs → s.ms .b60 = true
    · obtain ⟨-, -, hprio, hinvalid, -⟩ := hpassed hb
      rcases hsel with hsel | ⟨hsel, hvg⟩
      · exact hprio hsel
      · exact hinvalid hsel hvg
    · obtain ⟨hhs, h60⟩ := Classical.not_imp.1 hb
      exact hblocked hhs (by simpa using h60)
  · obtain ⟨-, -, hprio, heint⟩ := siregFromVsMode i s hc hS hm hms hhs
    rcases hsel with hsel | ⟨hsel, h58, hfile⟩
    · exact hprio hsel
    · obtain ⟨-, hpassed⟩ := heint hsel
      exact (hpassed h58).1 (.inr hfile)

/-! ### Bit 58 of `mstateen0`, and `vstopei` -/

/-- With Smstateen and an IMSIC bit 58 of `mstateen0` is in effect as it reads (R312). -/
theorem ms_b58_eq_mstateen0Bit {s : State} (h : s.cfg.hasSmstateen = true) (hi : s.cfg.hasImsic = true) :
    s.ms .b58 = s.mstateen0Bit .b58 := by
  simp [State.ms, h, hi]

/-- From HS-mode both windows at a select value of an IMSIC's registers need bit 58, and nothing they test before it lets
them through to anything else (R208, R254). -/
theorem siregAccess_of_b58_false {s : State} (hm : s.mode = .hs) (hsel : s.iselS.within 0x70 0xFF)
    (hi : s.cfg.hasImsic = true) (hb : s.ms .b58 = false) : siregAccess s = .illegal := by
  rw [siregAccess, (selClass_eint_iff _).2 hsel]
  simp [hm, hi, hb]

theorem vsiregDirect_of_b58_false {s : State} (hm : s.mode = .hs) (hsel : s.iselVS.within 0x70 0xFF)
    (hb : s.ms .b58 = false) : vsiregDirect s = .illegal := by
  rw [vsiregDirect, State.vsClass, (selClass_eint_iff _).2 hsel]
  cases s.vgeinValid <;> simp [hm, hb]

theorem siregVirtual_of_b58_false {s : State} (hm : s.mode = .vs) (hsel : s.iselVS.within 0x70 0xFF)
    (hhs : s.hs .b60 = true) (hb : s.ms .b58 = false) : siregVirtual s = .illegal := by
  rw [siregVirtual_eq, guestWindowAccess, (selClass_eint_iff _).2 hsel]
  cases s.ms .b60 <;> simp [hm, hhs, guestFileAccess, hasImsic_of_ms_b58_false hb, hb]

/-- Settles O42: bit 58 is the bit of `stopei` and `vstopei`, and each window tests it at these select values; the tests
before it answer an illegal instruction exception too. -/
theorem mstateen58ZeroIsIllegal : Obligations.Mstateen58ZeroIsIllegal := by
  intro i s hsm hi hbit hm hc
  have hb : s.ms .b58 = false := by rw [ms_b58_eq_mstateen0Bit hsm hi, hbit]
  rcases hc with hc | hc | ⟨hhs, hc, hsel⟩ | ⟨hhs, hc, hsel⟩ | ⟨hvs, hc, hsel, hhs⟩
  · exact exec_of_csrCheck_trap (e := .stopei) hc (csrCheck_of_ms_false rfl hb hm _)
  · exact exec_of_csrCheck_trap (e := .vstopei) hc (csrCheck_of_ms_false rfl hb hm _)
  · refine exec_of_csrCheck_trap (e := .sireg) hc (csrCheck_illegal_of (by simp) (fun _ => ?_) (fun hv => ?_) _)
    · rw [checkV0_sireg, siregAccess_of_b58_false hhs hsel hi hb, ite_self]
    · rw [hhs] at hv; cases hv
  · refine exec_of_csrCheck_trap (e := .vsireg) hc (csrCheck_illegal_of (by simp) (fun _ => ?_) (fun hv => ?_) _)
    · rw [checkV0_vsireg, vsiregDirect_of_b58_false hhs hsel hb, ite_self]
    · rw [hhs] at hv; cases hv
  · refine exec_of_csrCheck_trap (e := .sireg) hc (csrCheck_illegal_of (by simp) (fun hv => ?_) (fun _ => ?_) _)
    · rw [hvs] at hv; cases hv
    · rw [checkV1_sireg, siregVirtual_of_b58_false hvs hsel hhs hb]

/-- With V = 1 `stopei` and `vstopei` have a check of their own (R355). -/
theorem csrCheck_topei {e : Csr} {s : State} (he : e = .stopei ∨ e = .vstopei) (hv : s.mode.virt = true) (wr : Bool) :
    csrCheck e wr s = topeiVirtual e s := by
  have hM : e.row.level ≠ .M := by rcases he with rfl | rfl <;> decide
  have hu : s.mode ≠ .u := by
    intro hu
    simp [hu, Mode.virt] at hv
  simp only [csrCheck, hM, hu, hv, he, false_and, if_false, and_self, if_true]

/-- Where bit 58 of `mstateen0` does not make it illegal, a guest's access to `vstopei`, and one to `stopei` from VU-mode,
is a virtual instruction exception (R292). -/
theorem topeiVirtual_eq_virtual {e : Csr} {s : State} (h : e = .vstopei ∨ s.mode = .vu)
    (hb : ¬ (s.cfg.hasImsic = true ∧ s.ms .b58 = false)) : topeiVirtual e s = .virtual := by
  rw [topeiVirtual_eq, if_pos h]
  simpa using hb

/-- With V = 0 `vstopei` needs an IMSIC, bit 58 of `mstateen0` from HS-mode, and a valid VGEIN (R258). -/
theorem csrCheck_vstopei_illegal {s : State} (hv : s.mode.virt = false)
    (h : s.cfg.hasImsic = false ∨ (s.mode = .hs ∧ s.ms .b58 = false) ∨ ¬ (1 ≤ s.vgein ∧ s.vgein ≤ s.cfg.geilen))
    (wr : Bool) : csrCheck .vstopei wr s = .illegal := by
  rcases h with hi | ⟨hm, hb⟩ | hvg
  · exact csrCheck_of_absent ((csrExists_false_iff _ _).2 (.inr (.inr (.inl ⟨hi, rfl⟩)))) (by simp [hv]) wr
  · exact csrCheck_of_ms_false rfl hb (by rw [hm]; decide) wr
  · refine csrCheck_illegal_of (by simp [hv]) (fun _ => ?_) (fun h => by rw [hv] at h; cases h) wr
    rw [checkV0_vstopei, (vgeinValid_false_iff s).2 hvg]
    simp

theorem csrExists_vstopei {s : State} (hh : s.cfg.hasH = true) (hi : s.cfg.hasImsic = true) :
    csrExists .vstopei s = true := by
  simp [csrExists, Csr.row, CsrRow.hypervisor, hh, hi]

theorem accessCheck_vstopei_V0 {c : CsrNum} {s : State} (hc : c = 0x25C#12) (hh : s.cfg.hasH = true)
    (hi : s.cfg.hasImsic = true) (hm : s.mode = .m ∨ s.mode = .hs) (hb : s.mode = .hs → s.ms .b58 = true)
    (hvg : 1 ≤ s.vgein ∧ s.vgein ≤ s.cfg.geilen) (wr : Bool) : accessCheck c wr s = .ok (.own .vstopei) := by
  have hnum : c = Csr.number .vstopei := hc
  have hreach : reachableV0 .vstopei s :=
    reachableV0_of_en (csrExists_vstopei hh hi) rfl (by decide) (hm.imp_right fun h => ⟨h, hb h⟩)
  rw [hnum]
  exact accessCheck_of_plainTarget hreach rfl (by simp) fun _ => hvg

/-- Settles O53: from U-mode R351 answers, with V = 1 R355, with V = 0 the row of `vstopei`. -/
theorem vstopeiAndStopei : Obligations.VstopeiAndStopei := by
  intro i s hcfg hh
  refine ⟨fun hc hu => ?_, fun hv hc hi hb => ?_, fun hb hc => ?_, fun hm hc => ⟨fun hbad => ?_, ?_⟩,
    fun hm hc hb => ⟨fun hfile => ?_, fun hi h58 hlo hhi => ?_⟩⟩
  · exact exec_of_csrCheck_trap (e := .vstopei) hc (csrCheck_of_u hu _ _)
  · have hm : s.mode ≠ .m := by
      intro hm
      simp [hm, Mode.virt] at hv
    rcases hc with hc | hc
    · exact exec_of_csrCheck_trap (e := .vstopei) hc (csrCheck_of_ms_false rfl hb hm _)
    · exact exec_of_csrCheck_trap (e := .stopei) hc (csrCheck_of_ms_false rfl hb hm _)
  · rcases hc with ⟨hv, hc⟩ | ⟨hm, hc⟩
    · apply exec_of_csrCheck_trap (e := .vstopei) hc
      rw [csrCheck_topei (.inr rfl) hv, topeiVirtual_eq_virtual (.inl rfl) hb]
    · apply exec_of_csrCheck_trap (e := .stopei) hc
      rw [csrCheck_topei (.inl rfl) (by rw [hm]; rfl), topeiVirtual_eq_virtual (.inr hm) hb]
  · have hv : s.mode.virt = false := by rcases hm with hm | hm <;> rw [hm] <;> rfl
    exact exec_of_csrCheck_trap (e := .vstopei) hc (csrCheck_vstopei_illegal hv hbad _)
  · intro hi h58 hlo hhi
    have hok := accessCheck_vstopei_V0 hc hh hi hm h58 ⟨hlo, hhi⟩ (use i).writes
    exact ⟨hok, _, exec_of_ok hok⟩
  · have h58 : s.ms .b58 = true := by
      rw [← Bool.not_eq_false]
      exact fun h => hb ⟨hasImsic_of_ms_b58_false h, h⟩
    exact exec_virtual_of_no_guestFile hm (hasS_of_hasH hcfg hh) h58 ((guestFile_eq_none_iff s).2 hfile) (.inr hc)
  · have hms : s.ms .b58 = true := by
      rw [← Bool.not_eq_false]
      exact fun h => hb ⟨hi, h⟩
    have hok : accessCheck i.csr (use i).writes s = .ok (.own .vstopei) := by
      rw [accessCheck_of_csr (e := .stopei) hc]
      exact csrCheck_stopei_of_guestFile hm hi hms h58 ((vgeinValid_iff s).2 ⟨hlo, hhi⟩) _
    exact ⟨hok, _, exec_of_ok hok⟩

end Sys2Proof.Machine
end

section
/-! PROOFS. The numbers of the aliases of Smcsrind and Sscsrind (R358), and the numbers that are no CSR of this hardware (R350). -/

namespace Sys2Proof.Machine

/-! ### Alias numbers -/

/-- The numbers of the five aliases of a level's window (10_state.md R75 to R77). -/
def aliasNumbers : Level → List CsrNum
  | .M => [0x352#12, 0x353#12, 0x355#12, 0x356#12, 0x357#12]
  | .S => [0x152#12, 0x153#12, 0x155#12, 0x156#12, 0x157#12]
  | .VS => [0x252#12, 0x253#12, 0x255#12, 0x256#12, 0x257#12]

theorem windowAlias_eq_some_iff (n : CsrNum) (l : Level) : windowAlias n = some l ↔ n ∈ aliasNumbers l := by
  constructor
  · intro h
    unfold windowAlias at h
    split_ifs at h with hM hS hVS <;> cases h
    · exact hM
    · exact hS
    · exact hVS
  · intro h
    cases l <;> simp only [aliasNumbers, List.mem_cons, List.not_mem_nil, or_false] at h <;>
      rcases h with rfl | rfl | rfl | rfl | rfl <;> simp [windowAlias]

theorem accessCheck_of_mem_aliasNumbers {i : Instr} {l : Level} (h : i.csr ∈ aliasNumbers l) (wr : Bool) (s : State) :
    accessCheck i.csr wr s = aliasCheck l i.csr s :=
  accessCheck_alias ((windowAlias_eq_some_iff _ _).2 h) wr s

/-- Settles O54: R358 for the machine level, test by test. -/
theorem miregAliases : Obligations.MiregAliases := by
  intro i s hc
  have hacc := accessCheck_of_mem_aliasNumbers (l := .M) hc (use i).writes s
  refine ⟨fun hx => exec_of_refuse ?_, fun hx hm => exec_of_trap ?_,
    fun hx hm => ⟨fun hsel => exec_of_trap ?_, fun hsel => exec_of_refuse ?_⟩⟩
  · simp [hacc, aliasCheck, hx]
  · simp [hacc, aliasCheck, hx, hm]
  · simp [hacc, aliasCheck, hx, hm, (aiaRange_iff _).2 hsel]
  · simp [hacc, aliasCheck, hx, hm, (aiaRange_false_iff _).2 hsel]

/-- Settles O55: R358 for the supervisor level with V = 0, test by test. -/
theorem siregAliases : Obligations.SiregAliases := by
  intro i s hc
  have hacc := accessCheck_of_mem_aliasNumbers (l := .S) hc (use i).writes s
  refine ⟨fun hx => exec_of_refuse ?_, fun hx hm => exec_of_refuse ?_,
    fun hx hm => ⟨fun hsel hb => exec_of_trap ?_, fun hcase => exec_of_refuse ?_⟩⟩
  · simp [hacc, aliasCheck, hx]
  · simp [hacc, aliasCheck, hx, hm]
  · rcases hm with hm | hm
    · simp [hacc, aliasCheck, hx, hm, (aiaRange_iff _).2 hsel]
    · simp [hacc, aliasCheck, hx, hm, hb hm, (aiaRange_iff _).2 hsel]
  · rcases hcase with hsel | ⟨hm', hb⟩
    · rcases hm with hm | hm <;> simp [hacc, aliasCheck, hx, hm, (aiaRange_false_iff _).2 hsel]
    · simp [hacc, aliasCheck, hx, hm', hb]

/-- The extra aliases of `vsireg` (R260, first group). -/
theorem exec_vsiregAlias {i : Instr} (hc : i.csr ∈ aliasNumbers .VS) (s : State) :
    (s.cfg.hasSscsrind = false ∨ s.cfg.hasH = false → exec i s = .refused (.otherCsr i.csr)) ∧
    (s.cfg.hasSscsrind = true → s.cfg.hasH = true →
      ((s.mode = .m ∨ (s.mode = .hs ∧ s.ms .b60 = true)) → s.iselVS.inAiaRange →
        exec i s = .fault .illegalInstruction) ∧
      (s.mode = .u ∨ s.mode.virt = true ∨ ¬ s.iselVS.inAiaRange ∨ (s.mode = .hs ∧ s.ms .b60 = false) →
        exec i s = .refused .sscsrind)) := by
  have hacc := accessCheck_of_mem_aliasNumbers hc (use i).writes s
  refine ⟨fun hx => exec_of_refuse ?_,
    fun hx hh => ⟨fun hm hsel => exec_of_trap ?_, fun hcase => exec_of_refuse ?_⟩⟩
  · rcases hx with hx | hh
    · simp [hacc, aliasCheck, hx]
    · simp [hacc, aliasCheck, hh]
  · rcases hm with hm | ⟨hm, hb⟩
    · simp [hacc, aliasCheck, hx, hh, hm, (aiaRange_iff _).2 hsel]
    · simp [hacc, aliasCheck, hx, hh, hm, hb, (aiaRange_iff _).2 hsel]
  · rcases hcase with hm | hv | hsel | ⟨hm, hb⟩
    · simp [hacc, aliasCheck, hx, hh, hm]
    · cases hm : s.mode <;> simp [hm, Mode.virt] at hv <;> simp [hacc, aliasCheck, hx, hh, hm]
    · cases hm : s.mode <;> simp [hacc, aliasCheck, hx, hh, hm, (aiaRange_false_iff _).2 hsel]
    · simp [hacc, aliasCheck, hx, hh, hm, hb]

/-- A guest's extra aliases of `sireg` (R260, second group). -/
theorem exec_guestSiregAlias {i : Instr} (hc : i.csr ∈ aliasNumbers .S) {s : State} (hv : s.mode.virt = true) :
    (s.cfg.hasSscsrind = false → exec i s = .refused (.otherCsr i.csr)) ∧
    (s.cfg.hasSscsrind = true →
      (s.mode = .vs → s.ms .b60 = true → s.hs .b60 = true → s.iselVS.inAiaRange →
        exec i s = .fault .virtualInstruction) ∧
      (s.mode = .vu ∨ ¬ s.iselVS.inAiaRange ∨ s.ms .b60 = false ∨ s.hs .b60 = false →
        exec i s = .refused .sscsrind)) := by
  have hacc := accessCheck_of_mem_aliasNumbers hc (use i).writes s
  refine ⟨fun hx => exec_of_refuse ?_,
    fun hx => ⟨fun hm hms hhs hsel => exec_of_trap ?_, fun hcase => exec_of_refuse ?_⟩⟩
  · simp [hacc, aliasCheck, hx]
  · simp [hacc, aliasCheck, hx, hm, hms, hhs, (aiaRange_iff _).2 hsel]
  · have hmode : s.mode = .vs ∨ s.mode = .vu := by cases hm : s.mode <;> simp_all [Mode.virt]
    rcases hmode with hm | hm
    · rcases hcase with hm' | hsel | hms | hhs
      · rw [hm] at hm'; cases hm'
      · simp [hacc, aliasCheck, hx, hm, (aiaRange_false_iff _).2 hsel]
      · simp [hacc, aliasCheck, hx, hm, hms]
      · simp [hacc, aliasCheck, hx, hm, hhs]
    · simp [hacc, aliasCheck, hx, hm]

/-- Settles O56: the two groups. -/
theorem vsiregAliases : Obligations.VsiregAliases :=
  fun _ s => ⟨fun hc => exec_vsiregAlias hc s, fun hc hv => exec_guestSiregAlias hc hv⟩

/-! ### Numbers outside the 56 -/

/-- The hart lacks the extension that defines the aliases of a level's window (R358). -/
def aliasAbsent (c : Cfg) : Level → Prop
  | .M => c.hasSmcsrind = false
  | .S => c.hasSscsrind = false
  | .VS => c.hasSscsrind = false ∨ c.hasH = false

theorem aliasCheck_otherCsr_iff (l : Level) (c n : CsrNum) (s : State) :
    aliasCheck l c s = .refuse (.otherCsr n) ↔ c = n ∧ aliasAbsent s.cfg l := by
  cases l with
  | M =>
    cases hx : s.cfg.hasSmcsrind
    · simp [aliasCheck, aliasAbsent, hx]
    · simp only [aliasCheck, aliasAbsent, hx]
      split_ifs <;> simp_all
  | S =>
    cases hx : s.cfg.hasSscsrind
    · simp [aliasCheck, aliasAbsent, hx]
    · cases hm : s.mode <;> simp only [aliasCheck, aliasAbsent, hx, hm] <;> split_ifs <;> simp_all
  | VS =>
    by_cases hx : s.cfg.hasSscsrind = true ∧ s.cfg.hasH = true
    · obtain ⟨hx, hh⟩ := hx
      cases hm : s.mode <;> simp only [aliasCheck, aliasAbsent, hx, hh, hm] <;> split_ifs <;> simp_all
    · have habsent : s.cfg.hasSscsrind = false ∨ s.cfg.hasH = false := by
        simpa only [not_and_or, Bool.not_eq_true] using hx
      simp [aliasCheck, aliasAbsent, habsent]

section neOtherCsr

variable (s : State) (n : CsrNum)

theorem reservedOutcome_ne_otherCsr (l : Level) : reservedOutcome s l ≠ .refuse (.otherCsr n) := by
  rcases reservedOutcome_cases s l with ⟨-, h⟩ | ⟨-, h⟩ <;> simp [h]

theorem iregAccess_ne_otherCsr (l : Level) (file k : Nat) : iregAccess s l file k ≠ .refuse (.otherCsr n) := by
  rcases iregAccess_cases s l file k with ⟨-, h⟩ | ⟨-, h⟩ <;> simp [h]

theorem miregAccess_ne_otherCsr : miregAccess s ≠ .refuse (.otherCsr n) := by
  unfold miregAccess
  repeat' split
  all_goals simp [reservedOutcome_ne_otherCsr, iregAccess_ne_otherCsr]

theorem siregAccess_ne_otherCsr : siregAccess s ≠ .refuse (.otherCsr n) := by
  unfold siregAccess
  repeat' split
  all_goals simp [reservedOutcome_ne_otherCsr, iregAccess_ne_otherCsr]

theorem vsiregDirect_ne_otherCsr : vsiregDirect s ≠ .refuse (.otherCsr n) := by
  unfold vsiregDirect
  repeat' split
  all_goals simp [reservedOutcome_ne_otherCsr, iregAccess_ne_otherCsr]

theorem siregVirtual_ne_otherCsr : siregVirtual s ≠ .refuse (.otherCsr n) := by
  unfold siregVirtual
  repeat' split
  all_goals simp [reservedOutcome_ne_otherCsr, iregAccess_ne_otherCsr]

theorem topeiVirtual_ne_otherCsr (e : Csr) : topeiVirtual e s ≠ .refuse (.otherCsr n) := by
  unfold topeiVirtual
  split_ifs <;> simp

theorem plainTarget_ne_otherCsr (e : Csr) : plainTarget e ≠ .refuse (.otherCsr n) := by
  unfold plainTarget
  split <;> simp

theorem checkV0_ne_otherCsr (e : Csr) : checkV0 e s ≠ .refuse (.otherCsr n) := by
  unfold checkV0
  repeat' split
  all_goals simp [miregAccess_ne_otherCsr, siregAccess_ne_otherCsr, vsiregDirect_ne_otherCsr, plainTarget_ne_otherCsr]

theorem checkV1_ne_otherCsr (e : Csr) : checkV1 e s ≠ .refuse (.otherCsr n) := by
  unfold checkV1
  repeat' split
  all_goals simp [siregVirtual_ne_otherCsr, plainTarget_ne_otherCsr]

/-- The check of one of the 41 CSRs is never refused as that of another CSR. -/
theorem csrCheck_ne_otherCsr (e : Csr) (wr : Bool) : csrCheck e wr s ≠ .refuse (.otherCsr n) := by
  unfold csrCheck
  split_ifs <;> simp [topeiVirtual_ne_otherCsr, checkV0_ne_otherCsr, checkV1_ne_otherCsr]

end neOtherCsr

theorem wellFormed_false_iff (i : Instr) :
    i.wellFormed = false ↔ Csr.ofNumber i.csr = none ∧ windowAlias i.csr = none := by
  simp [Instr.wellFormed, CsrNum.known]

theorem accessCheck_otherCsr_iff (c n : CsrNum) (wr : Bool) (s : State) :
    accessCheck c wr s = .refuse (.otherCsr n) ↔
      c = n ∧ ((Csr.ofNumber c = none ∧ windowAlias c = none) ∨ ∃ l, windowAlias c = some l ∧ aliasAbsent s.cfg l) := by
  cases ha : windowAlias c with
  | some l => simp [accessCheck, ha, aliasCheck_otherCsr_iff]
  | none =>
    cases he : Csr.ofNumber c with
    | some e => simp [accessCheck, ha, he, csrCheck_ne_otherCsr]
    | none => simp [accessCheck, ha, he]

/-- Settles O57: the access check refuses a number as another CSR's only where it is no CSR, or one of the aliases
whose extension is absent. -/
theorem unknownCsrNumbersAreRefused : Obligations.UnknownCsrNumbersAreRefused := by
  intro i s n
  have hlevels : (∃ l, windowAlias i.csr = some l ∧ aliasAbsent s.cfg l) ↔
      (i.csr ∈ aliasNumbers .M ∧ aliasAbsent s.cfg .M) ∨ (i.csr ∈ aliasNumbers .S ∧ aliasAbsent s.cfg .S) ∨
        (i.csr ∈ aliasNumbers .VS ∧ aliasAbsent s.cfg .VS) := by
    simp only [← windowAlias_eq_some_iff]
    constructor
    · rintro ⟨_ | _ | _, h⟩
      · exact .inl h
      · exact .inr (.inl h)
      · exact .inr (.inr h)
    · rintro (h | h | h) <;> exact ⟨_, h⟩
  rw [exec_refused_iff, accessCheck_otherCsr_iff, ← wellFormed_false_iff, hlevels, eq_comm]
  rfl

end Sys2Proof.Machine
end

section
/-! PROOFS. The window protocol under `PlainStorage` (20_memory.md R102): select, write, read back. -/

namespace Sys2Proof.Machine

theorem fit_of_lt {x : Xlen} {v : Word} (h : v.toNat < 2 ^ x.bits) : fit x v = v := by
  apply BitVec.eq_of_toNat_eq
  rw [fit_toNat, Nat.mod_eq_of_lt h]

theorem fit_readReg (s : State) (r : Reg) : fit s.xlen (s.readReg r) = s.readReg r := fit_of_lt (readReg_lt s r)

theorem getIreg_setIreg_self {i : Intr} (h : i.canonical) (l : Level) (file n : Nat) (w : Word) :
    (i.setIreg l file n w).getIreg l file n = w := by
  obtain ⟨-, hM, hS, hVS⟩ := h
  cases l with
  | M => exact RegMap.get_set_self (lo := 0) _ _ _ hM
  | S => exact RegMap.get_set_self (lo := 0) _ _ _ hS
  | VS => exact RegMap.get_set_self (lo := 0) _ _ _ hVS

section plain

variable {s : State} {wmask : Vector Word 14} (hp : s.cfg.intrLogic = .plainStorage wmask)
include hp

/-- Under `PlainStorage` every number holds a register. -/
theorem iregAccess_plain (l : Level) (file n : Nat) : iregAccess s l file n = .ok (.ireg l file n) := by
  simp [iregAccess, iregExists, hp]

theorem csrRead_ireg_plain (l : Level) (file n : Nat) :
    csrRead (.ireg l file n) s = fit s.xlen (s.intr.getIreg l file n) := by
  simp only [csrRead, iregRd, hp]

/-- The state after `csrrw x0` has stored a value in an indirect register. -/
theorem exec_csrrw_ireg_plain {c : CsrNum} {l : Level} {file n : Nat}
    (h : accessCheck c true s = .ok (.ireg l file n)) (rs1 : Reg) :
    ∃ old, exec (.csrrw 0 c rs1) s =
      .next ((s.withIntr (s.intr.setIreg l file n (s.readReg rs1))).complete 0 old) := by
  refine ⟨csrRead (.ireg l file n) s, ?_⟩
  rw [csrrwCompletes 0 rs1 c s _ h, csrWrite, iregWr_plain hp, fit_readReg]

end plain

/-- The state after `csrrw x0` has stored a register number in a select register. -/
def State.selecting (s : State) (l : Level) (n : Nat) : State :=
  (s.withIsel l ⟨false, n⟩).complete 0 ((s.isel l).view s.xlen)

section selecting

variable (s : State) (l : Level) (n : Nat)

@[simp] theorem selecting_cfg : (s.selecting l n).cfg = s.cfg := by simp [State.selecting]
@[simp] theorem selecting_mode : (s.selecting l n).mode = s.mode := by simp [State.selecting]
@[simp] theorem selecting_intr : (s.selecting l n).intr = s.intr := by simp [State.selecting]
@[simp] theorem selecting_vgein : (s.selecting l n).vgein = s.vgein := by simp [State.selecting]
@[simp] theorem selecting_xlen : (s.selecting l n).xlen = s.xlen := by simp [State.selecting]
@[simp] theorem selecting_isel : (s.selecting l n).isel l = ⟨false, n⟩ := by simp [State.selecting]
@[simp] theorem selecting_mstateen0 : (s.selecting l n).mstateen0 = s.mstateen0 := by simp [State.selecting]
@[simp] theorem selecting_hstateen0 : (s.selecting l n).hstateen0 = s.hstateen0 := by simp [State.selecting]
@[simp] theorem selecting_ms (b : EnBit) : (s.selecting l n).ms b = s.ms b := by
  simp [State.ms, State.mstateen0Bit]
@[simp] theorem selecting_hs (b : EnBit) : (s.selecting l n).hs b = s.hs b := by
  simp [State.hs, State.hstateen0Bit]
@[simp] theorem selecting_readReg (r : Reg) : (s.selecting l n).readReg r = s.readReg r := by
  simp [State.selecting, State.readReg]

end selecting

/-- A `csrrw` of a select register with a value below the implemented bits stores it as written. -/
theorem exec_csrrw_selecting {s : State} {c : CsrNum} {l : Level} (hcfg : s.cfg.wf = true) (h : selectAllowed s c l)
    {rs1 : Reg} (hlt : (s.readReg rs1).toNat < 2 ^ s.cfg.iselBits l) :
    exec (.csrrw 0 c rs1) s = .next (s.selecting l (s.readReg rs1).toNat) := by
  obtain ⟨-, hbits, -, -⟩ := iselBits_bounds hcfg l
  rw [exec_csrrw_select h, legalise_of_lt hbits _ _ hlt]
  rfl

theorem miregAccess_plain {s : State} {wmask : Vector Word 14} (hp : s.cfg.intrLogic = .plainStorage wmask)
    (h : s.iselM.within 0x30 0x3F ∨ (s.cfg.hasImsic = true ∧ s.iselM.within 0x70 0xFF)) :
    miregAccess s = .ok (.ireg .M 0 s.iselM.val) := by
  rcases h with h | ⟨hi, h⟩
  · rw [miregAccess, (selClass_prio_iff _).2 h]
    exact iregAccess_plain hp .M 0 _
  · rw [miregAccess, (selClass_eint_iff _).2 h]
    simp [hi, iregAccess_plain hp]

/-- After a number of a populated range is written to `miselect`, `mireg` is that register. -/
theorem accessCheck_mireg_selecting {s : State} {wmask : Vector Word 14} (hp : s.cfg.intrLogic = .plainStorage wmask)
    (hm : s.mode = .m) {n : Nat}
    (hrange : (0x30 ≤ n ∧ n ≤ 0x3F) ∨ (s.cfg.hasImsic = true ∧ 0x70 ≤ n ∧ n ≤ 0xFF)) (wr : Bool) :
    accessCheck 0x351#12 wr (s.selecting .M n) = .ok (.ireg .M 0 n) := by
  have hsel : (s.selecting .M n).iselM = ⟨false, n⟩ := selecting_isel s .M n
  have hwithin : (s.selecting .M n).iselM.within 0x30 0x3F ∨
      ((s.selecting .M n).cfg.hasImsic = true ∧ (s.selecting .M n).iselM.within 0x70 0xFF) := by
    simpa [hsel, Isel.within] using hrange
  rw [accessCheck_mireg rfl (by rwa [selecting_mode]) wr, miregAccess_plain (by rwa [selecting_cfg]) hwithin, hsel]

/-- Settles O58: the select value is stored as written, so the window is at that register, which then holds the value. -/
theorem machineWindowReadsBack : Obligations.MachineWindowReadsBack := by
  intro s wmask rn rv rd hwf hp hm hrd hrange
  obtain ⟨hcfg, -, -, -, -, -, -, hintr⟩ := (wf_iff s).1 hwf
  have hcanon : s.intr.canonical := (intrLegal_iff s).1 hintr wmask hp
  obtain ⟨hmin, -, himsic, -⟩ := iselBits_bounds hcfg .M
  have hlt : (s.readReg rn).toNat < 2 ^ s.cfg.iselBits .M := by
    rcases hrange with ⟨-, hhi⟩ | ⟨hi, -, hhi⟩
    · exact (show _ < 2 ^ 6 by omega).trans_le (Nat.pow_le_pow_right (by decide) hmin)
    · exact (show _ < 2 ^ 8 by omega).trans_le (Nat.pow_le_pow_right (by decide) (himsic hi))
  have hselect := exec_csrrw_selecting hcfg (.inl ⟨hm, rfl, rfl⟩) hlt
  generalize hn : (s.readReg rn).toNat = n at hselect hrange
  have hp1 : (s.selecting .M n).cfg.intrLogic = .plainStorage wmask := by rwa [selecting_cfg]
  have hwindow := accessCheck_mireg_selecting hp hm hrange
  obtain ⟨old, hwrite⟩ := exec_csrrw_ireg_plain hp1 (hwindow true) rv
  refine ⟨_, _, _, hselect, hwrite, (csrrsCompletes rd 0 _ _ (.ireg .M 0 n)).1 ?_, ?_⟩
  · rw [(sameAccess_withIntr_complete _ _ _ _).accessCheck]
    exact hwindow false
  · rw [complete_readReg_self _ _ hrd, csrRead_ireg_plain (by simpa using hp)]
    simp [getIreg_setIreg_self hcanon, fit_readReg]

theorem guestWindowAccess_plain {s : State} {wmask : Vector Word 14} (hp : s.cfg.intrLogic = .plainStorage wmask)
    (hsel : s.iselVS.within 0x70 0xFF) (h58 : s.ms .b58 = true) {file : Nat} (hfile : s.guestFile = some file) :
    guestWindowAccess s = .ok (.ireg .VS file s.iselVS.val) := by
  rw [guestWindowAccess, (selClass_eint_iff _).2 hsel]
  simp [guestFileAccess, h58, hfile, iregAccess_plain hp]

theorem vsiregDirect_plain {s : State} {wmask : Vector Word 14} (hp : s.cfg.intrLogic = .plainStorage wmask)
    (hsel : s.iselVS.within 0x70 0xFF) (h58 : s.ms .b58 = true) (hvg : s.vgeinValid = true) :
    vsiregDirect s = .ok (.ireg .VS s.vgein s.iselVS.val) := by
  rw [vsiregDirect, State.vsClass, (selClass_eint_iff _).2 hsel, hvg]
  simp [h58, iregAccess_plain hp]

/-- After a number of the guest interrupt file is written to a guest's `siselect`, its `sireg` is that register. -/
theorem accessCheck_sireg_selecting {s : State} {wmask : Vector Word 14} (hp : s.cfg.intrLogic = .plainStorage wmask)
    (hS : s.cfg.hasS = true) (hm : s.mode = .vs) (hms : ∀ b, s.ms b = true) (hhs : ∀ b, s.hs b = true)
    (hi : s.cfg.hasImsic = true) (hvg : 1 ≤ s.vgein ∧ s.vgein ≤ s.cfg.geilen) {n : Nat} (hn : 0x70 ≤ n ∧ n ≤ 0xFF)
    (wr : Bool) : accessCheck 0x151#12 wr (s.selecting .VS n) = .ok (.ireg .VS s.vgein n) := by
  have hsel : (s.selecting .VS n).iselVS = ⟨false, n⟩ := selecting_isel s .VS n
  have hfile : (s.selecting .VS n).guestFile = some s.vgein := by
    simpa using guestFile_eq_some (s := s.selecting .VS n) (by simpa using hi) (by simpa using hhs _)
      (by simpa using hvg)
  rw [accessCheck_sireg_VS rfl (by simpa using hS) (by simpa using hm) (by simpa using hms _) (by simpa using hhs _) wr,
    guestWindowAccess_plain (by rwa [selecting_cfg]) (by rw [hsel]; exact ⟨rfl, hn⟩) (by simpa using hms _) hfile, hsel]

/-- `vsireg` read from M-mode or HS-mode with every bit of `mstateen0` in effect. -/
theorem exec_csrrs_vsireg_plain {s : State} {wmask : Vector Word 14} (hp : s.cfg.intrLogic = .plainStorage wmask)
    (hh : s.cfg.hasH = true) (hm : s.mode = .m ∨ s.mode = .hs) (hms : ∀ b, s.ms b = true)
    (hsel : s.iselVS.within 0x70 0xFF) (hvg : s.vgeinValid = true) (rd : Reg) :
    exec (.csrrs rd 0x251#12 0) s =
      .next (s.complete rd (fit s.xlen (s.intr.getIreg .VS s.vgein s.iselVS.val))) := by
  have hacc : accessCheck 0x251#12 false s = .ok (.ireg .VS s.vgein s.iselVS.val) := by
    rw [accessCheck_vsireg_V0 rfl hh hm (fun _ => hms _) false, vsiregDirect_plain hp hsel (hms _) hvg]
  rw [(csrrsCompletes rd 0 _ s _).1 hacc, csrRead_ireg_plain hp]

/-- Only an IMSIC with the hypervisor extension has guest interrupt files (R6). -/
theorem hasImsic_of_geilen_pos {c : Cfg} (h : c.wf = true) (hg : 1 ≤ c.geilen) : c.hasImsic = true := by
  simp only [Cfg.wf, Bool.and_eq_true, Bool.or_eq_true, beq_iff_eq] at h
  have hzero : c.geilen ≠ 0 := by omega
  simp_all

/-- A legal configuration gives M-mode and HS-mode no less than VSXLEN bits. -/
theorem vsxlen_bits_le {c : Cfg} (h : c.wf = true) {md : Mode} (hm : md = .m ∨ md = .hs) :
    c.vsxlen.bits ≤ (md.xlen c).bits := by
  obtain ⟨hvs, hs⟩ := xlen_bits_le h
  rcases hm with rfl | rfl
  · exact hvs.trans hs
  · exact hvs

/-- Settles O59: the guest's two numbers are `vsiselect` and the file's register, which `vsireg` reads at a width no less
than the guest's. -/
theorem guestWindowIsTheHypervisorsVsWindow : Obligations.GuestWindowIsTheHypervisorsVsWindow := by
  intro s wmask rn rv rd hwf hp hm hrd hms hhs hlo hhi hmin hmax
  obtain ⟨hcfg, havail, -, -, -, -, -, hintr⟩ := (wf_iff s).1 hwf
  have hcanon : s.intr.canonical := (intrLegal_iff s).1 hintr wmask hp
  have hh : s.cfg.hasH = true := by simpa [hm, Mode.available] using havail
  have hS : s.cfg.hasS = true := hasS_of_hasH hcfg hh
  have hi : s.cfg.hasImsic = true := hasImsic_of_geilen_pos hcfg (hlo.trans hhi)
  have hlt : (s.readReg rn).toNat < 2 ^ s.cfg.iselBits .VS := by
    obtain ⟨-, -, -, hbits⟩ := iselBits_bounds hcfg .VS
    exact (show _ < 2 ^ 9 by omega).trans_le (Nat.pow_le_pow_right (by decide) (hbits rfl))
  have hselect := exec_csrrw_selecting hcfg (.inr (.inr (.inr ⟨hS, hm, hms _, hhs _, rfl, rfl⟩))) hlt
  generalize hn : (s.readReg rn).toNat = n at hselect hmin hmax
  have hp1 : (s.selecting .VS n).cfg.intrLogic = .plainStorage wmask := by rwa [selecting_cfg]
  have hsel1 : (s.selecting .VS n).iselVS = ⟨false, n⟩ := selecting_isel s .VS n
  have hwindow := accessCheck_sireg_selecting hp hS hm hms hhs hi ⟨hlo, hhi⟩ ⟨hmin, hmax⟩ true
  obtain ⟨old, hwrite⟩ := exec_csrrw_ireg_plain hp1 hwindow rv
  refine ⟨_, _, hselect, hwrite, by simp [State.selecting, State.withIsel], fun md hmd => ?_⟩
  set s2 := ((s.selecting .VS n).withIntr ((s.selecting .VS n).intr.setIreg .VS s.vgein n
    ((s.selecting .VS n).readReg rv))).complete 0 old with hs2
  have hsel2 : s2.iselVS = ⟨false, n⟩ := by simpa [hs2] using hsel1
  have hms2 : ∀ b, State.ms { s2 with mode := md } b = true := fun b => by
    simpa [hs2, State.ms, State.mstateen0Bit] using hms b
  have hvg2 : State.vgeinValid { s2 with mode := md } = true := by simpa [hs2, State.vgeinValid] using ⟨hlo, hhi⟩
  refine ⟨_, exec_csrrs_vsireg_plain (by simpa [hs2] using hp) (by simpa [hs2] using hh) hmd hms2
    (by rw [hsel2]; exact ⟨rfl, hmin, hmax⟩) hvg2 rd, ?_⟩
  have hstored : s2.intr.getIreg .VS s2.vgein s2.iselVS.val = s.readReg rv := by
    rw [hsel2]
    simp [hs2, getIreg_setIreg_self hcanon]
  rw [complete_readReg_self _ _ hrd, fit_fit, hstored]
  apply fit_of_lt
  have hwidth : s.cfg.vsxlen.bits ≤ (State.xlen { s2 with mode := md }).bits := by
    simpa [State.xlen, hs2] using vsxlen_bits_le hcfg hmd
  have hvalue : (s.readReg rv).toNat < 2 ^ s.cfg.vsxlen.bits := by
    simpa [State.xlen, hm, Mode.xlen] using readReg_lt s rv
  exact hvalue.trans_le (Nat.pow_le_pow_right (by decide) hwidth)

end Sys2Proof.Machine
end
